-- ==== Sys2Proof/Word.lean ====
section
/-! DEFINITION. Word types of the machine (00_scope.md rule R6: all values are unsigned). -/

namespace Sys2Proof

/-- One nibble: a register number or a sub-selector (R61). -/
abbrev Nibble := BitVec 4

/-- One byte: a memory cell, a general register or a timer (R10, R18, R40). -/
abbrev Byte := BitVec 8

/-- A 12-bit address: PC, I, a stack entry, the field NNN (R12, R14, R16, R61). -/
abbrev Addr := BitVec 12

/-- A 16-bit word: an instruction (R60) or a key mask (R25, R26). -/
abbrev Word := BitVec 16

/-- One framebuffer row; bit 63 is the leftmost pixel (R23). -/
abbrev FbRow := BitVec 64

end Sys2Proof
end

