-- ==== Sys2Proof/Machine/Flags.lean ====
section
/-! DEFINITION. Every value the machine writes to VF as a flag (10_state.md rule R11), each computed
from the operands read before any write. -/

namespace Sys2Proof.Machine

/-- A flag as the byte VF receives: 1 or 0 (R11). -/
def flagByte (b : Bool) : Byte := if b then 1 else 0

/-- 1 iff the unbounded sum of two bytes is at least 256 (R119, R121, R126). -/
def carryFlag (a b : Byte) : Byte := flagByte (decide (256 ≤ a.toNat + b.toNat))

/-- 1 iff a - b needs no borrow, that is a >= b (R119, R127, R129). -/
def noBorrowFlag (a b : Byte) : Byte := flagByte (decide (b.toNat ≤ a.toNat))

/-- The bit a right shift drops, a[0] (R128). -/
def shiftedOutLow (a : Byte) : Byte := flagByte (a.getLsbD 0)

/-- The bit a left shift drops, a[7] (R130). -/
def shiftedOutHigh (a : Byte) : Byte := flagByte (a.getLsbD 7)

/-- 1 iff the unmasked sum of I and a register is at least 4096 (R141). -/
def indexCarryFlag (i : Addr) (b : Byte) : Byte := flagByte (decide (4096 ≤ i.toNat + b.toNat))

end Sys2Proof.Machine
end

