-- ==== Sys2Proof/Syntax.lean ====
section
/-! DEFINITION. The instructions, one constructor per row of spec/opcode_table.json, in its order
(30_encoding.md rule R64). A constructor carries every field of its word, the fields the decoder
does not examine included (R66), so that a word and its instruction determine each other. -/

namespace Sys2Proof

/-- The 35 instructions of rule R64. -/
inductive Instr where
  /-- 0_E0 CLS, X ignored (R150). -/
  | cls (x : Nibble)
  /-- 0_EE RET, X ignored (R101). -/
  | ret (x : Nibble)
  /-- 0NNN SYS NNN, NNN ignored (R100). -/
  | sys (nnn : Addr)
  /-- 1NNN JP NNN (R102). -/
  | jp (nnn : Addr)
  /-- 2NNN CALL NNN (R103). -/
  | call (nnn : Addr)
  /-- 3XNN SE Vx, NN (R104). -/
  | seImm (x : Nibble) (nn : Byte)
  /-- 4XNN SNE Vx, NN (R105). -/
  | sneImm (x : Nibble) (nn : Byte)
  /-- 5XYN SE Vx, Vy, N ignored (R106). -/
  | seReg (x y n : Nibble)
  /-- 6XNN LD Vx, NN (R120). -/
  | ldImm (x : Nibble) (nn : Byte)
  /-- 7XNN ADD Vx, NN (R121). -/
  | addImm (x : Nibble) (nn : Byte)
  /-- 8XY0 LD Vx, Vy (R122). -/
  | ldReg (x y : Nibble)
  /-- 8XY1 OR Vx, Vy (R123). -/
  | orReg (x y : Nibble)
  /-- 8XY2 AND Vx, Vy (R124). -/
  | andReg (x y : Nibble)
  /-- 8XY3 XOR Vx, Vy (R125). -/
  | xorReg (x y : Nibble)
  /-- 8XY4 ADD Vx, Vy (R126). -/
  | addReg (x y : Nibble)
  /-- 8XY5 SUB Vx, Vy (R127). -/
  | subReg (x y : Nibble)
  /-- 8XY6 SHR Vx, Y ignored (R128). -/
  | shr (x y : Nibble)
  /-- 8XY7 SUBN Vx, Vy (R129). -/
  | subnReg (x y : Nibble)
  /-- 8XYE SHL Vx, Y ignored (R130). -/
  | shl (x y : Nibble)
  /-- 9XYN SNE Vx, Vy, N ignored (R107). -/
  | sneReg (x y n : Nibble)
  /-- ANNN LD I, NNN (R140). -/
  | ldI (nnn : Addr)
  /-- BNNN JP V0, NNN (R108). -/
  | jpV0 (nnn : Addr)
  /-- CXNN RND Vx, NN (R131). -/
  | rnd (x : Nibble) (nn : Byte)
  /-- DXYN DRW Vx, Vy, N (R152). -/
  | drw (x y n : Nibble)
  /-- EX9E SKP Vx (R160). -/
  | skp (x : Nibble)
  /-- EXA1 SKNP Vx (R161). -/
  | sknp (x : Nibble)
  /-- FX07 LD Vx, DT (R164). -/
  | ldVxDt (x : Nibble)
  /-- FX0A LD Vx, K (R162). -/
  | ldVxK (x : Nibble)
  /-- FX15 LD DT, Vx (R165). -/
  | ldDtVx (x : Nibble)
  /-- FX18 LD ST, Vx (R166). -/
  | ldStVx (x : Nibble)
  /-- FX1E ADD I, Vx (R141). -/
  | addIVx (x : Nibble)
  /-- FX29 LD F, Vx (R142). -/
  | ldFVx (x : Nibble)
  /-- FX33 LD B, Vx (R143). -/
  | ldBVx (x : Nibble)
  /-- FX55 LD [I], Vx (R144). -/
  | ldMemVx (x : Nibble)
  /-- FX65 LD Vx, [I] (R145). -/
  | ldVxMem (x : Nibble)
deriving DecidableEq, Repr

end Sys2Proof
end

