-- ==== Sys2Proof/Decode.lean ====
section
/-! DEFINITION. The decoder (30_encoding.md rule R63), total on any bytes and rejecting by name; the
encoder; and the opcode table of rule R64 as data. -/

namespace Sys2Proof

/-! ### Fields of the instruction word (R61) -/

/-- class = w[15:12]. -/
def fieldClass (w : Word) : Nibble := w.extractLsb' 12 4
/-- X = w[11:8]. -/
def fieldX (w : Word) : Nibble := w.extractLsb' 8 4
/-- Y = w[7:4]. -/
def fieldY (w : Word) : Nibble := w.extractLsb' 4 4
/-- N = w[3:0]. -/
def fieldN (w : Word) : Nibble := w.extractLsb' 0 4
/-- NN = w[7:0]. -/
def fieldNN (w : Word) : Byte := w.extractLsb' 0 8
/-- NNN = w[11:0]. -/
def fieldNNN (w : Word) : Addr := w.extractLsb' 0 12

/-- Why bytes are not an instruction. -/
inductive Illegal where
  /-- Class 8 with N one of 8, 9, A, B, C, D, F (R65). -/
  | aluSelector (n : Nibble)
  /-- Class E with NN neither 0x9E nor 0xA1 (R65). -/
  | keySelector (nn : Byte)
  /-- Class F with NN none of the nine listed selectors (R65). -/
  | miscSelector (nn : Byte)
  /-- Fewer than two bytes were given (R60: every instruction is two bytes). -/
  | truncated
deriving DecidableEq, Repr

/-- Class 0: NN selects CLS, RET or the no-op SYS (R63). -/
def decodeClass0 (w : Word) : Instr :=
  if fieldNN w = 0xE0#8 then .cls (fieldX w)
  else if fieldNN w = 0xEE#8 then .ret (fieldX w)
  else .sys (fieldNNN w)

/-- Class 8: N selects one of nine operations on Vx and Vy (R63). -/
def decodeClass8 (w : Word) : Except Illegal Instr :=
  match (fieldN w).toNat with
  | 0x0 => .ok (.ldReg (fieldX w) (fieldY w))
  | 0x1 => .ok (.orReg (fieldX w) (fieldY w))
  | 0x2 => .ok (.andReg (fieldX w) (fieldY w))
  | 0x3 => .ok (.xorReg (fieldX w) (fieldY w))
  | 0x4 => .ok (.addReg (fieldX w) (fieldY w))
  | 0x5 => .ok (.subReg (fieldX w) (fieldY w))
  | 0x6 => .ok (.shr (fieldX w) (fieldY w))
  | 0x7 => .ok (.subnReg (fieldX w) (fieldY w))
  | 0xE => .ok (.shl (fieldX w) (fieldY w))
  | _ => .error (.aluSelector (fieldN w))

/-- Class E: NN selects SKP or SKNP (R63). -/
def decodeClassE (w : Word) : Except Illegal Instr :=
  match (fieldNN w).toNat with
  | 0x9E => .ok (.skp (fieldX w))
  | 0xA1 => .ok (.sknp (fieldX w))
  | _ => .error (.keySelector (fieldNN w))

/-- Class F: NN selects one of nine instructions (R63). -/
def decodeClassF (w : Word) : Except Illegal Instr :=
  match (fieldNN w).toNat with
  | 0x07 => .ok (.ldVxDt (fieldX w))
  | 0x0A => .ok (.ldVxK (fieldX w))
  | 0x15 => .ok (.ldDtVx (fieldX w))
  | 0x18 => .ok (.ldStVx (fieldX w))
  | 0x1E => .ok (.addIVx (fieldX w))
  | 0x29 => .ok (.ldFVx (fieldX w))
  | 0x33 => .ok (.ldBVx (fieldX w))
  | 0x55 => .ok (.ldMemVx (fieldX w))
  | 0x65 => .ok (.ldVxMem (fieldX w))
  | _ => .error (.miscSelector (fieldNN w))

/-- The two-level dispatch of rule R63; the last arm is class 0xF. -/
def decode (w : Word) : Except Illegal Instr :=
  match (fieldClass w).toNat with
  | 0x0 => .ok (decodeClass0 w)
  | 0x1 => .ok (.jp (fieldNNN w))
  | 0x2 => .ok (.call (fieldNNN w))
  | 0x3 => .ok (.seImm (fieldX w) (fieldNN w))
  | 0x4 => .ok (.sneImm (fieldX w) (fieldNN w))
  | 0x5 => .ok (.seReg (fieldX w) (fieldY w) (fieldN w))
  | 0x6 => .ok (.ldImm (fieldX w) (fieldNN w))
  | 0x7 => .ok (.addImm (fieldX w) (fieldNN w))
  | 0x8 => decodeClass8 w
  | 0x9 => .ok (.sneReg (fieldX w) (fieldY w) (fieldN w))
  | 0xA => .ok (.ldI (fieldNNN w))
  | 0xB => .ok (.jpV0 (fieldNNN w))
  | 0xC => .ok (.rnd (fieldX w) (fieldNN w))
  | 0xD => .ok (.drw (fieldX w) (fieldY w) (fieldN w))
  | 0xE => decodeClassE w
  | _ => decodeClassF w

/-- The word of two consecutive bytes: byte0, at the lower address, is the high byte (R48, R60). -/
def wordOfBytes (byte0 byte1 : Byte) : Word := byte0 ++ byte1

/-- Decode the first instruction of a byte sequence and give back the rest (R60). -/
def decodeBytes : List Byte → Except Illegal (Instr × List Byte)
  | byte0 :: byte1 :: rest =>
    match decode (wordOfBytes byte0 byte1) with
    | .ok i => .ok (i, rest)
    | .error e => .error e
  | _ => .error .truncated

/-! ### The encoder -/

/-- Formats R, D and Z: four nibbles. -/
def packNibbles (c x y n : Nibble) : Word := c ++ x ++ y ++ n
/-- Formats I and S: class, X, NN. -/
def packXNN (c x : Nibble) (nn : Byte) : Word := c ++ x ++ nn
/-- Format A: class, NNN. -/
def packNNN (c : Nibble) (nnn : Addr) : Word := c ++ nnn

/-- The word of an instruction, from the patterns of rule R64. -/
def encode : Instr → Word
  | .cls x => packXNN 0x0 x 0xE0
  | .ret x => packXNN 0x0 x 0xEE
  | .sys nnn => packNNN 0x0 nnn
  | .jp nnn => packNNN 0x1 nnn
  | .call nnn => packNNN 0x2 nnn
  | .seImm x nn => packXNN 0x3 x nn
  | .sneImm x nn => packXNN 0x4 x nn
  | .seReg x y n => packNibbles 0x5 x y n
  | .ldImm x nn => packXNN 0x6 x nn
  | .addImm x nn => packXNN 0x7 x nn
  | .ldReg x y => packNibbles 0x8 x y 0x0
  | .orReg x y => packNibbles 0x8 x y 0x1
  | .andReg x y => packNibbles 0x8 x y 0x2
  | .xorReg x y => packNibbles 0x8 x y 0x3
  | .addReg x y => packNibbles 0x8 x y 0x4
  | .subReg x y => packNibbles 0x8 x y 0x5
  | .shr x y => packNibbles 0x8 x y 0x6
  | .subnReg x y => packNibbles 0x8 x y 0x7
  | .shl x y => packNibbles 0x8 x y 0xE
  | .sneReg x y n => packNibbles 0x9 x y n
  | .ldI nnn => packNNN 0xA nnn
  | .jpV0 nnn => packNNN 0xB nnn
  | .rnd x nn => packXNN 0xC x nn
  | .drw x y n => packNibbles 0xD x y n
  | .skp x => packXNN 0xE x 0x9E
  | .sknp x => packXNN 0xE x 0xA1
  | .ldVxDt x => packXNN 0xF x 0x07
  | .ldVxK x => packXNN 0xF x 0x0A
  | .ldDtVx x => packXNN 0xF x 0x15
  | .ldStVx x => packXNN 0xF x 0x18
  | .addIVx x => packXNN 0xF x 0x1E
  | .ldFVx x => packXNN 0xF x 0x29
  | .ldBVx x => packXNN 0xF x 0x33
  | .ldMemVx x => packXNN 0xF x 0x55
  | .ldVxMem x => packXNN 0xF x 0x65

/-- The high byte of a word, the one stored at the lower address (R48). -/
def highByte (w : Word) : Byte := w.extractLsb' 8 8
/-- The low byte of a word, the one stored at the higher address (R48). -/
def lowByte (w : Word) : Byte := w.extractLsb' 0 8

/-- An instruction as the hardware stores it, lowest address first (R48). -/
def encodeBytes (i : Instr) : List Byte := [highByte (encode i), lowByte (encode i)]

/-! ### The opcode table as data (R64) -/

/-- One row of rule R64's table: its number, and the match and mask over the word. -/
structure OpcodeRow where
  number : Nat
  pattern : Word
  mask : Word
deriving DecidableEq, Repr

/-- Rows 1 to 10: classes 0 to 7. -/
def opcodeRowsLow : List OpcodeRow :=
  [⟨1, 0x00E0, 0xF0FF⟩, ⟨2, 0x00EE, 0xF0FF⟩, ⟨3, 0x0000, 0xF000⟩, ⟨4, 0x1000, 0xF000⟩,
   ⟨5, 0x2000, 0xF000⟩, ⟨6, 0x3000, 0xF000⟩, ⟨7, 0x4000, 0xF000⟩, ⟨8, 0x5000, 0xF000⟩,
   ⟨9, 0x6000, 0xF000⟩, ⟨10, 0x7000, 0xF000⟩]

/-- Rows 11 to 24: classes 8 to D. -/
def opcodeRowsMiddle : List OpcodeRow :=
  [⟨11, 0x8000, 0xF00F⟩, ⟨12, 0x8001, 0xF00F⟩, ⟨13, 0x8002, 0xF00F⟩, ⟨14, 0x8003, 0xF00F⟩,
   ⟨15, 0x8004, 0xF00F⟩, ⟨16, 0x8005, 0xF00F⟩, ⟨17, 0x8006, 0xF00F⟩, ⟨18, 0x8007, 0xF00F⟩,
   ⟨19, 0x800E, 0xF00F⟩, ⟨20, 0x9000, 0xF000⟩, ⟨21, 0xA000, 0xF000⟩, ⟨22, 0xB000, 0xF000⟩,
   ⟨23, 0xC000, 0xF000⟩, ⟨24, 0xD000, 0xF000⟩]

/-- Rows 25 to 35: classes E and F. -/
def opcodeRowsHigh : List OpcodeRow :=
  [⟨25, 0xE09E, 0xF0FF⟩, ⟨26, 0xE0A1, 0xF0FF⟩, ⟨27, 0xF007, 0xF0FF⟩, ⟨28, 0xF00A, 0xF0FF⟩,
   ⟨29, 0xF015, 0xF0FF⟩, ⟨30, 0xF018, 0xF0FF⟩, ⟨31, 0xF01E, 0xF0FF⟩, ⟨32, 0xF029, 0xF0FF⟩,
   ⟨33, 0xF033, 0xF0FF⟩, ⟨34, 0xF055, 0xF0FF⟩, ⟨35, 0xF065, 0xF0FF⟩]

/-- The 35 rows in the order in which they are to be tried (R64). -/
def opcodeTable : List OpcodeRow := opcodeRowsLow ++ opcodeRowsMiddle ++ opcodeRowsHigh

/-- The word w selects the row when w AND mask = match (R64). -/
def OpcodeRow.selects (r : OpcodeRow) (w : Word) : Bool := w &&& r.mask == r.pattern

/-- The number of the first row that the word selects; none is an illegal word (R64, R65). -/
def firstRow (w : Word) : Option Nat := (opcodeTable.find? (fun r => r.selects w)).map (·.number)

/-- The row number of an instruction in rule R64's table. -/
def Instr.rowNumber : Instr → Nat
  | .cls _ => 1
  | .ret _ => 2
  | .sys _ => 3
  | .jp _ => 4
  | .call _ => 5
  | .seImm _ _ => 6
  | .sneImm _ _ => 7
  | .seReg _ _ _ => 8
  | .ldImm _ _ => 9
  | .addImm _ _ => 10
  | .ldReg _ _ => 11
  | .orReg _ _ => 12
  | .andReg _ _ => 13
  | .xorReg _ _ => 14
  | .addReg _ _ => 15
  | .subReg _ _ => 16
  | .shr _ _ => 17
  | .subnReg _ _ => 18
  | .shl _ _ => 19
  | .sneReg _ _ _ => 20
  | .ldI _ => 21
  | .jpV0 _ => 22
  | .rnd _ _ => 23
  | .drw _ _ _ => 24
  | .skp _ => 25
  | .sknp _ => 26
  | .ldVxDt _ => 27
  | .ldVxK _ => 28
  | .ldDtVx _ => 29
  | .ldStVx _ => 30
  | .addIVx _ => 31
  | .ldFVx _ => 32
  | .ldBVx _ => 33
  | .ldMemVx _ => 34
  | .ldVxMem _ => 35

/-! ### The host's question -/

/-- The bytes, lowest address first, of a table word: one 16-bit word, high byte first (R48). Bits
above `nbits` are 0. -/
def tableWordBytes (nbits w : Nat) : List Byte :=
  [highByte (BitVec.ofNat 16 (w % 2 ^ nbits)), lowByte (BitVec.ofNat 16 (w % 2 ^ nbits))]

/-- The instruction the decoder reads from the table word w. -/
def decodeTableWord (nbits w : Nat) : Option Instr :=
  match decodeBytes (tableWordBytes nbits w) with
  | .ok (i, _) => some i
  | .error _ => none

end Sys2Proof
end

