-- ==== Sys2Proof/Config.lean ====
section
/-! DEFINITION. What is fixed for one machine (its three parameters, R5), the shape of one cycle's
inputs (R28), and the one free value of the model: the inputs of a cycle nobody has chosen. -/

namespace Sys2Proof

/-- The three parameters of 00_scope.md rule R5. They stand in State as one field that no step
writes, so that a statement about every state holds for every choice of them (log entry 2). -/
structure Params where
  /-- FONT: 80 bytes, 16 glyphs of 5 bytes (R43, R45). -/
  font : Vector Byte 80
  /-- MEM_FILL: the reset value of memory outside font and image (R44). -/
  memFill : Byte
  /-- QUIRK_VWRAP: true makes sprites wrap at the bottom edge, false clips them (R153). -/
  quirkVwrap : Bool
deriving DecidableEq, Repr

/-- One sample of the four per-cycle input ports of 10_state.md rule R28. -/
structure Ports where
  /-- key_pressed: bit i is 1 when key i went down since the last report (R29). -/
  keyPressed : Word
  /-- key_released: bit i is 1 when key i went up since the last report (R29). -/
  keyReleased : Word
  /-- rnd: the random byte, a draw under no law (R31). -/
  rnd : Byte
  /-- tick_due: the environment's clock found 1/60 s elapsed (R30). -/
  tickDue : Bool
deriving DecidableEq, Repr, Inhabited

/-- FREE VALUE. The input sample of a cycle for which the feed of State holds none: no law
constrains it (R29, R30, R31: "under no law"; log entry 1). It has no body, so no proof can see it.
The argument counts the samples drawn, so two cycles may see any two samples. -/
opaque Config.freePorts : Nat → Ports

end Sys2Proof
end

