-- ==== Sys2Proof/Machine/Layout.lean ====
section
/-! DEFINITION. The fixed sizes of the machine (00_scope.md rule R5), the default parameters, and what
memory holds at reset before an image is copied (20_memory.md rules R42 to R45). -/

namespace Sys2Proof.Machine

/-- The highest memory address, 0xFFF (R40). -/
def maxAddr : Nat := 0xFFF
/-- PROG_BASE (R5). -/
def progBase : Nat := 0x200
/-- PROG_MAX = 4096 - 512 (R5). -/
def progMax : Nat := 3584
/-- FONT_BASE (R5, R43). -/
def fontBase : Nat := 0x000
/-- FONT_LEN: the first address above the write-protected font region (R5, R47). -/
def fontLen : Nat := 80
/-- STACK_DEPTH (R5). -/
def stackDepth : Nat := 16

/-- Glyphs 0 to 7 of the customary font (R45, PRESUMED: from general knowledge; log entry 3). -/
def glyphsLow : List Byte :=
  [0xF0, 0x90, 0x90, 0x90, 0xF0,  0x20, 0x60, 0x20, 0x20, 0x70,
   0xF0, 0x10, 0xF0, 0x80, 0xF0,  0xF0, 0x10, 0xF0, 0x10, 0xF0,
   0x90, 0x90, 0xF0, 0x10, 0x10,  0xF0, 0x80, 0xF0, 0x10, 0xF0,
   0xF0, 0x80, 0xF0, 0x90, 0xF0,  0xF0, 0x10, 0x20, 0x40, 0x40]

/-- Glyphs 8 to F of the customary font (R45, PRESUMED; log entry 3). -/
def glyphsHigh : List Byte :=
  [0xF0, 0x90, 0xF0, 0x90, 0xF0,  0xF0, 0x90, 0xF0, 0x10, 0xF0,
   0xF0, 0x90, 0xF0, 0x90, 0x90,  0xE0, 0x90, 0xE0, 0x90, 0xE0,
   0xF0, 0x80, 0x80, 0x80, 0xF0,  0xE0, 0x90, 0x90, 0x90, 0xE0,
   0xF0, 0x80, 0xF0, 0x80, 0xF0,  0xF0, 0x80, 0xF0, 0x80, 0x80]

/-- The default of the parameter FONT (R45). -/
def defaultFont : Vector Byte 80 := ⟨(glyphsLow ++ glyphsHigh).toArray, by decide⟩

/-- The default parameters of rule R5: the customary font, MEM_FILL = 0x00, clipping. -/
def defaultParams : Params := { font := defaultFont, memFill := 0x00, quirkVwrap := false }

/-- What an address holds at reset before an image is copied, and so what an address that memory
does not list reads as: FONT at 0x000..0x04F, MEM_FILL elsewhere (R44). -/
def resetByte (p : Params) (a : Nat) : Byte :=
  if h : a < 80 then p.font[a] else p.memFill

end Sys2Proof.Machine
end

