-- ==== Sys2Proof/Machine/State.lean ====
section
/-! DEFINITION. The state of the core (10_state.md), its value after reset (R34, R212), and the
reasons a step could stop outside the architecture (none). -/

namespace Sys2Proof.Machine

/-- The cause field of the status register (R27, R171). Its 4-bit codes are `Cause.code`. -/
inductive Cause where
  /-- 0: the core executes cycles. -/
  | run
  /-- 1: a rejected image; raised by reset (R211). -/
  | loadSize
  /-- 2: an illegal word; raised by decode (R83). -/
  | decode
  /-- 3: CALL with SP = 16 (R103). -/
  | stackOverflow
  /-- 4: RET with SP = 0 (R101). -/
  | stackUnderflow
  /-- 5: a data access above 0xFFF (R46). -/
  | memBounds
  /-- 6: a fetch at PC = 0xFFF (R82). -/
  | fetchBounds
  /-- 7: a new PC above 0xFFF (R84). -/
  | pcRange
  /-- 8: a store below 0x050 (R47). -/
  | fontWrite
  /-- 9: a key index above 15 (R160, R161). -/
  | keyIndex
  /-- 10: a digit above 15 (R142). -/
  | digitIndex
deriving DecidableEq, Repr

/-- The status register: the core's run state (R27). -/
structure Status where
  cause : Cause
  info : BitVec 32
deriving DecidableEq, Repr

/-- Memory as a sparse list: every address that does not hold its reset content, addresses rising
(R40, R44). An address not listed reads as `resetByte`. -/
abbrev Memory := List Host.Cell

/-- THE MODEL'S OWN (log entry 1): the environment's side of the input ports. `pending` holds the
samples of the coming cycles, next cycle first; once it is empty, the samples are the free values
`Config.freePorts`, numbered by `drawn`. -/
structure InputFeed where
  pending : List Ports
  drawn : Nat
deriving DecidableEq, Repr

/-- Everything the core holds (R4, R35), its parameters (R5) and its input feed (R28). -/
structure State where
  /-- V0..VF (R10); V[15] is also the flag VF (R11). -/
  v : Vector Byte 16
  /-- I, the 12-bit index register (R14). -/
  i : Addr
  /-- PC, the 12-bit program counter (R12). -/
  pc : Addr
  /-- SP, the number of addresses on the call stack, one of the seventeen values 0..16 (R15). -/
  sp : Fin 17
  /-- Stack[0..15], 12-bit addresses (R16). -/
  stack : Vector Addr 16
  /-- DT, the delay timer (R18). -/
  dt : Byte
  /-- ST, the sound timer (R19). -/
  st : Byte
  /-- tone_en, the tone gate (R22, R200). -/
  toneEn : Bool
  /-- FB[0..31]; column x of a row is bit 63 - x (R23). -/
  fb : Vector FbRow 32
  /-- held, the keys now down (R25). -/
  held : Word
  /-- newly, the keys pressed in this cycle (R26). -/
  newly : Word
  /-- status, the run state (R27). -/
  status : Status
  /-- Mem[0..4095] (R40). -/
  mem : Memory
  /-- FONT, MEM_FILL, QUIRK_VWRAP (R5); no step writes them. -/
  params : Params
  /-- The input ports' samples to come (R28); the model's own field. -/
  env : InputFeed
deriving DecidableEq, Repr

/-- A step never ends in a fault of this type: every fatal condition of the spec is the NEXT state
that rule R172 describes (status written, the core stopped), and a cycle is total (R80). So the type
has no constructor (log entry 6; safe: nothing is lost). -/
inductive Fault where
deriving DecidableEq, Repr

/-- Reasons an instruction has no meaning in this model. -/
inductive Refusal where
  /-- Raised only by an arm of `exec` whose instruction has no meaning yet; no arm is one (safe). -/
  | notModelled (mnemonic : String)
deriving DecidableEq, Repr

/-- The reset value of every register and device (R34, R212) with the parameters p; memory lists
nothing, so it holds FONT and MEM_FILL (R44); the input feed holds no chosen sample. Every zero but
SP's is the spec's own choice (D18; log entry 5). -/
def State.cleared (p : Params) : State where
  v := Vector.replicate 16 0
  i := 0x000
  pc := 0x200
  sp := 0
  stack := Vector.replicate 16 0
  dt := 0
  st := 0
  toneEn := false
  fb := Vector.replicate 32 0
  held := 0
  newly := 0
  status := { cause := .run, info := 0 }
  mem := []
  params := p
  env := { pending := [], drawn := 0 }

/-- The machine right after reset with the default parameters and an empty image, which is accepted
(R211: the document sets no lower bound). An image comes in by `resetWith` of Machine/Reset.lean. -/
def State.reset : State := State.cleared defaultParams

end Sys2Proof.Machine
end

