-- ==== Sys2Proof/Machine/Memory.lean ====
section
/-! DEFINITION. Memory: one byte read, one byte written, the canonical form (20_memory.md rules R40,
R44, R51). The argument d is what an unlisted address reads as. -/

namespace Sys2Proof.Machine

/-- The byte at address a: the latest store to it, or its reset content (R51). -/
def Memory.read (d : Nat → Byte) : Memory → Nat → Byte
  | [], a => d a
  | (b, u) :: m, a => if a = b then u else Memory.read d m a

/-- Drop every entry of address a. -/
def Memory.erase (m : Memory) (a : Nat) : Memory := m.filter (fun c => c.1 != a)

/-- Put an entry before the first one with a higher address. -/
def Memory.insert : Memory → Nat → Byte → Memory
  | [], a, u => [(a, u)]
  | (b, w) :: m, a, u => if a < b then (a, u) :: (b, w) :: m else (b, w) :: Memory.insert m a u

/-- Store byte u at address a. A byte equal to the reset content is not listed. -/
def Memory.write (d : Nat → Byte) (m : Memory) (a : Nat) (u : Byte) : Memory :=
  if u = d a then Memory.erase m a else Memory.insert (Memory.erase m a) a u

/-- Addresses rise strictly, from one above `low` (none below it), and no entry equals the reset
content or lies outside the 4096 bytes. -/
def Memory.wfFrom (d : Nat → Byte) : Nat → Memory → Bool
  | _, [] => true
  | low, (b, u) :: m => decide (low ≤ b) && decide (b ≤ maxAddr) && u != d b && wfFrom d (b + 1) m

/-- The canonical form of memory. -/
def Memory.wf (d : Nat → Byte) (m : Memory) : Bool := Memory.wfFrom d 0 m

/-- Store a sequence of bytes at ascending addresses (R50). -/
def Memory.writeBytes (d : Nat → Byte) : Memory → Nat → List Byte → Memory
  | m, _, [] => m
  | m, a, u :: us => Memory.writeBytes d (Memory.write d m a u) (a + 1) us

end Sys2Proof.Machine
end

