-- ==== Sys2Proof/Machine/Ops.lean ====
section
/-! DEFINITION. The named operations every instruction is made of: registers, memory, taking a fault,
the checked advance of PC, the call stack, fetch and decode. -/

namespace Sys2Proof.Machine

/-- What an instruction's meaning answers with. -/
abbrev Result := Host.Outcome State Fault Refusal

/-! ### General registers (R10) -/

/-- V[x]. -/
def State.reg (s : State) (x : Nibble) : Byte := s.v[x.toNat]'(x.isLt)

/-- V[x] <- b. No register is hardwired (R10). -/
def State.setReg (s : State) (x : Nibble) (b : Byte) : State :=
  { s with v := s.v.set x.toNat b x.isLt }

/-- V[15], the machine's only flag (R11). -/
def State.vf (s : State) : Byte := s.reg 0xF

/-- Write a result to V[x] and then a flag to VF, so that with x = 0xF the flag stays
(R11, R86; the order is decision D10). -/
def State.setResultFlag (s : State) (x : Nibble) (result flag : Byte) : State :=
  (s.setReg x result).setReg 0xF flag

/-- V[k], V[k + 1], ... <- the bytes, ascending (R145); bytes past V[15] are dropped. -/
def loadBytes (v : Vector Byte 16) : Nat → List Byte → Vector Byte 16
  | _, [] => v
  | k, b :: bs => loadBytes (v.setIfInBounds k b) (k + 1) bs

/-- V[0], ..., V[x], the registers FX55 stores (R144). -/
def State.regsUpTo (s : State) (x : Nibble) : List Byte :=
  s.v.toList.take (x.toNat + 1)

/-! ### Memory (R40, R50) -/

/-- What an address reads as when memory does not list it (R44). -/
def State.fill (s : State) : Nat → Byte := resetByte s.params

/-- MemRead(a, 1) (R7). -/
def State.readByte (s : State) (a : Nat) : Byte := s.mem.read s.fill a

/-- The n bytes at a, a + 1, ... (R50). -/
def State.readBytes (s : State) (a : Nat) : Nat → List Byte
  | 0 => []
  | n + 1 => s.readByte a :: State.readBytes s (a + 1) n

/-- MemWrite of a sequence of bytes at ascending addresses (R7, R50). -/
def State.storeBytes (s : State) (a : Nat) (bs : List Byte) : State :=
  { s with mem := s.mem.writeBytes s.fill a bs }

/-! ### Faults (R170 to R174) -/

/-- The 4-bit code of a cause (R27, R171). -/
def Cause.code : Cause → BitVec 4
  | .run => 0
  | .loadSize => 1
  | .decode => 2
  | .stackOverflow => 3
  | .stackUnderflow => 4
  | .memBounds => 5
  | .fetchBounds => 6
  | .pcRange => 7
  | .fontWrite => 8
  | .keyIndex => 9
  | .digitIndex => 10

/-- TAKING A FAULT, the machine's one exception entry (R172): status receives the cause and the
information word and nothing else changes; no register is saved, there is no handler. No
instruction returns from a fault (R174); only reset leaves the stopped state (R175,
`resetWith`). -/
def takeFault (c : Cause) (info : Nat) (s : State) : State :=
  { s with status := { cause := c, info := BitVec.ofNat 32 info } }

/-! ### The checked advance (R84) -/

/-- End an instruction that stood in state s and whose writes give s': PC <- checked(target), that is
PC_RANGE(target), with none of the writes, when target exceeds 0xFFF (R84, R85). -/
def finishAt (target : Nat) (s s' : State) : State :=
  if maxAddr < target then takeFault .pcRange target s else { s' with pc := BitVec.ofNat 12 target }

/-- next = PC + 2, unbounded (R84). -/
def State.next (s : State) : Nat := s.pc.toNat + 2

/-- skip = PC + 4, unbounded (R84). -/
def State.skip (s : State) : Nat := s.pc.toNat + 4

/-- The default advance (R84). -/
def finishNext (s s' : State) : State := finishAt s.next s s'

/-- The advance of a skip instruction, which writes nothing but PC (R104 to R107, R160, R161). -/
def finishSkipIf (taken : Bool) (s : State) : State :=
  finishAt (if taken then s.skip else s.next) s s

/-! ### The call stack (R17) -/

/-- push(PC): the entry at the old SP receives the address, then SP rises (R17, D23); with 16
addresses on the stack the fault STACK_OVERFLOW (D6). -/
def pushPc (s : State) (k : State → State) : State :=
  if h : s.sp.val < stackDepth then
    k { s with stack := s.stack.set s.sp.val s.pc h, sp := ⟨s.sp.val + 1, Nat.succ_lt_succ h⟩ }
  else takeFault .stackOverflow s.pc.toNat s

/-- pop(): SP falls and the entry at the new SP is the popped address (R17, D23); with an empty stack
the fault STACK_UNDERFLOW (D6). The continuation receives the address and the popped state. -/
def popPc (s : State) (k : Addr → State → State) : State :=
  if h : s.sp.val = 0 then takeFault .stackUnderflow s.pc.toNat s
  else
    k (s.stack[s.sp.val - 1]'(by have := s.sp.isLt; omega))
      { s with sp := ⟨s.sp.val - 1, by have := s.sp.isLt; omega⟩ }

/-! ### Fetch and decode (R82, R83) -/

/-- The word at PC: byte0 at PC is the high byte (R48, R82). -/
def State.fetchWord (s : State) : Word :=
  wordOfBytes (s.readByte s.pc.toNat) (s.readByte (s.pc.toNat + 1))

/-- The information word of DECODE: byte0 * 2^24 + byte1 * 2^16 + PC (R83, R171). -/
def decodeInfo (w : Word) (pc : Addr) : Nat := w.toNat * 2 ^ 16 + pc.toNat

/-- Fetch and decode the instruction at PC, or the cause and information word of the fault: a fetch
never takes byte1 from 0x000 by wrapping (R82, D5). -/
def fetchDecode (s : State) : Except (Cause × Nat) Instr :=
  if maxAddr < s.pc.toNat + 1 then .error (.fetchBounds, s.pc.toNat)
  else
    match decode s.fetchWord with
    | .ok i => .ok i
    | .error _ => .error (.decode, decodeInfo s.fetchWord s.pc)

/-- Lay an instruction's bytes where fetch takes them from. Bytes above 0xFFF have no place. -/
def State.placeAtPc (s : State) (bs : List Byte) : State :=
  s.storeBytes s.pc.toNat (bs.take (maxAddr + 1 - s.pc.toNat))

/-! ### The input ports (R28 to R31) -/

/-- The sample of this cycle: the next one of the feed, or a free value when the feed holds none
(log entry 1). -/
def State.ports (s : State) : Ports :=
  match s.env.pending with
  | p :: _ => p
  | [] => Config.freePorts s.env.drawn

/-- The feed after this cycle's sample has been taken. -/
def consumeSample (s : State) : State :=
  { s with env := { pending := s.env.pending.tail, drawn := s.env.drawn + 1 } }

/-! ### The phases of a cycle around the instruction (R80) -/

/-- Phase (a), the keypad latch (R195). -/
def latchKeys (s : State) : State :=
  { s with
    held := (s.held ||| s.ports.keyPressed) &&& ~~~s.ports.keyReleased
    newly := s.ports.keyPressed }

/-- One decrement of a timer: floor at 0 (R190, R20). -/
def countDown (b : Byte) : Byte := if b = 0 then 0 else b - 1

/-- Phase (c), one timer tick: both timers drop by one, and the tone goes off when ST reaches 0 from
above (R190). -/
def tick (s : State) : State :=
  { s with
    dt := countDown s.dt
    st := countDown s.st
    toneEn := if s.st ≠ 0 ∧ countDown s.st = 0 then false else s.toneEn }

/-- A tick if one is due (R80). Written field by field, so that the rest of the state does not depend
on the input. -/
def tickIf (due : Bool) (s : State) : State :=
  { s with
    dt := if due then (tick s).dt else s.dt
    st := if due then (tick s).st else s.st
    toneEn := if due then (tick s).toneEn else s.toneEn }

/-- FX18's write of the sound timer and the tone gate (R166; zero clears the gate, D16). -/
def State.setSound (s : State) (b : Byte) : State :=
  { s with st := b, toneEn := b != 0 }

/-! ### The output ports (R28, R32) -/

/-- pixel(x, y) = FB[y][63 - x] (R23). -/
def State.pixel (s : State) (x : Fin 64) (y : Fin 32) : Bool := s.fb[y].getLsbD (63 - x.val)

end Sys2Proof.Machine
end

