-- ==== Sys2Proof/Machine/Operands.lean ====
section
/-! DEFINITION. Effective addresses (43_index_memory.md rule R146) and the checks of operands, each of
which either takes its fault or goes on (R173: operand checks, then bounds, then font, then PC). -/

namespace Sys2Proof.Machine

/-- The effective address I + k, unbounded (R46, R146). -/
def State.ea (s : State) (k : Nat) : Nat := s.i.toNat + k

/-- MEM_BOUNDS(hi) when the highest address of the range exceeds 0xFFF (R46, D4). -/
def checkBounds (hi : Nat) (s : State) (k : State) : State :=
  if maxAddr < hi then takeFault .memBounds hi s else k

/-- FONT_WRITE(lo) when the lowest address of a store lies below 0x050 (R47, D8). -/
def checkFont (lo : Nat) (s : State) (k : State) : State :=
  if lo < fontBase + fontLen then takeFault .fontWrite lo s else k

/-- A key index: V[x] above 15 is KEY_INDEX(V[x]) (R160, R161, D9). -/
def checkKey (x : Nibble) (s : State) (k : State) : State :=
  if 15 < (s.reg x).toNat then takeFault .keyIndex (s.reg x).toNat s else k

/-- A digit: V[x] above 15 is DIGIT_INDEX(V[x]) (R142, D9). -/
def checkDigit (x : Nibble) (s : State) (k : State) : State :=
  if 15 < (s.reg x).toNat then takeFault .digitIndex (s.reg x).toNat s else k

/-- held[k] (R25). -/
def State.keyHeld (s : State) (k : Nat) : Bool := s.held.getLsbD k

/-- lowest(m): the least i with m[i] = 1, for a non-zero mask (R7). -/
def lowest (m : Word) : Nat := ((List.range 16).find? (fun i => m.getLsbD i)).getD 0

/-- FONT_BASE + 5 * d, the address of the glyph of digit d (R43, R142; log entry 24). -/
def glyphAddr (d : Nat) : Nat := fontBase + 5 * d

/-- The three decimal digits of a byte, hundreds first (R143). -/
def bcdDigits (b : Byte) : List Byte :=
  [BitVec.ofNat 8 (b.toNat / 100), BitVec.ofNat 8 (b.toNat / 10 % 10), BitVec.ofNat 8 (b.toNat % 10)]

end Sys2Proof.Machine
end

