-- ==== Sys2Proof/Machine/Alu.lean ====
section
/-! DEFINITION. Register load, arithmetic, logic, shift and random (42_load_alu_random.md). -/

namespace Sys2Proof.Machine

/-- 6XNN LD Vx, NN (R120). -/
def execLdImm (x : Nibble) (nn : Byte) (s : State) : Result :=
  .next (finishNext s (s.setReg x nn))

/-- 7XNN ADD Vx, NN, with the carry in VF (R121). -/
def execAddImm (x : Nibble) (nn : Byte) (s : State) : Result :=
  .next (finishNext s (s.setResultFlag x (s.reg x + nn) (carryFlag (s.reg x) nn)))

/-- 8XY0 LD Vx, Vy (R122). -/
def execLdReg (x y : Nibble) (s : State) : Result :=
  .next (finishNext s (s.setReg x (s.reg y)))

/-- 8XY1 OR Vx, Vy; VF is left alone (R123, D11). -/
def execOrReg (x y : Nibble) (s : State) : Result :=
  .next (finishNext s (s.setReg x (s.reg x ||| s.reg y)))

/-- 8XY2 AND Vx, Vy; VF is left alone (R124, D11). -/
def execAndReg (x y : Nibble) (s : State) : Result :=
  .next (finishNext s (s.setReg x (s.reg x &&& s.reg y)))

/-- 8XY3 XOR Vx, Vy; VF is left alone (R125, D11). -/
def execXorReg (x y : Nibble) (s : State) : Result :=
  .next (finishNext s (s.setReg x (s.reg x ^^^ s.reg y)))

/-- 8XY4 ADD Vx, Vy, with the carry in VF (R126). -/
def execAddReg (x y : Nibble) (s : State) : Result :=
  .next (finishNext s (s.setResultFlag x (s.reg x + s.reg y) (carryFlag (s.reg x) (s.reg y))))

/-- 8XY5 SUB Vx, Vy: Vx - Vy, with NOT borrow in VF (R127). -/
def execSubReg (x y : Nibble) (s : State) : Result :=
  .next (finishNext s (s.setResultFlag x (s.reg x - s.reg y) (noBorrowFlag (s.reg x) (s.reg y))))

/-- 8XY6 SHR Vx: Y is ignored (R128, R66). -/
def execShr (x : Nibble) (s : State) : Result :=
  .next (finishNext s (s.setResultFlag x (s.reg x >>> 1) (shiftedOutLow (s.reg x))))

/-- 8XY7 SUBN Vx, Vy: Vy - Vx, with NOT borrow in VF (R129). -/
def execSubnReg (x y : Nibble) (s : State) : Result :=
  .next (finishNext s (s.setResultFlag x (s.reg y - s.reg x) (noBorrowFlag (s.reg y) (s.reg x))))

/-- 8XYE SHL Vx: Y is ignored (R130, R66). -/
def execShl (x : Nibble) (s : State) : Result :=
  .next (finishNext s (s.setResultFlag x (s.reg x <<< 1) (shiftedOutHigh (s.reg x))))

/-- CXNN RND Vx, NN: the random byte of this cycle's input sample AND NN (R131, R31). -/
def execRnd (x : Nibble) (nn : Byte) (s : State) : Result :=
  .next (finishNext s (s.setReg x (s.ports.rnd &&& nn)))

end Sys2Proof.Machine
end

