-- ==== Sys2Proof/Machine/Display.lean ====
section
/-! DEFINITION. Display (44_display.md): CLS, DRW and the XOR sprite engine. -/

namespace Sys2Proof.Machine

/-- ror64(v, r): bit i moves to bit (i - r) mod 64 (R7). -/
def ror64 (r : FbRow) (k : Nat) : FbRow := r.rotateRight k

/-- A sprite byte in bits 63..56, rotated right by x: horizontal wraparound (R151, R152). -/
def spriteRow (b : Byte) (x : Nat) : FbRow := ror64 (b.setWidth 64 <<< 56) x

/-- What the sprite engine works on: the framebuffer and the collision seen so far. -/
structure Canvas where
  fb : Vector FbRow 32
  collision : Bool
deriving DecidableEq, Repr

/-- XOR one row onto row r (taken mod 32) and report a pixel that was on and is targeted (R152). -/
def Canvas.xorRow (c : Canvas) (r : Nat) (row : FbRow) : Canvas where
  fb := c.fb.set (r % 32) (c.fb[r % 32]'(Nat.mod_lt r (by decide)) ^^^ row) (Nat.mod_lt r (by decide))
  collision := c.collision || ((c.fb[r % 32]'(Nat.mod_lt r (by decide)) &&& row) != 0)

/-- Draw sprite bytes at column x from row y downwards. Without `wrap` the first row past 31 ends the
drawing (vertical clipping, R151, R152); with it the row index is taken mod 32 (R153). -/
def Canvas.draw (wrap : Bool) (x : Nat) : Nat → List Byte → Canvas → Canvas
  | _, [], c => c
  | y, b :: bs, c =>
    if !wrap && decide (31 < y) then c
    else Canvas.draw wrap x (y + 1) bs (c.xorRow y (spriteRow b x))

/-- The framebuffer and collision that DRW of n rows at column x, row y gives in state s: the sprite is
Mem[I .. I + n - 1] (R151, R152). -/
def State.spriteCanvas (s : State) (x y : Byte) (n : Nat) : Canvas :=
  Canvas.draw s.params.quirkVwrap x.toNat y.toNat (s.readBytes (s.ea 0) n)
    { fb := s.fb, collision := false }

/-- The bounds check of DRW: the whole range I..I + N - 1, clipped rows included; none when N = 0
(R152, D14). -/
def checkSprite (n : Nat) (s : State) (k : State) : State :=
  if n = 0 then k else checkBounds (s.ea (n - 1)) s k

/-- 00E0 CLS: all 32 rows to zero (R150). -/
def execCls (s : State) : Result := .next (finishNext s { s with fb := Vector.replicate 32 0 })

/-- DXYN DRW Vx, Vy, N (R152, R153). -/
def execDrw (x y n : Nibble) (s : State) : Result :=
  .next (checkSprite n.toNat s (finishNext s
    ({ s with fb := (s.spriteCanvas (s.reg x) (s.reg y) n.toNat).fb }.setReg 0xF
      (flagByte (s.spriteCanvas (s.reg x) (s.reg y) n.toNat).collision))))

end Sys2Proof.Machine
end

