-- ==== Sys2Proof/Machine/Flow.lean ====
section
/-! DEFINITION. Control flow (41_flow_control.md): SYS, RET, JP, CALL, SE, SNE, JP V0. -/

namespace Sys2Proof.Machine

/-- 0NNN SYS: a no-op (R100). -/
def execSys (s : State) : Result := .next (finishNext s s)

/-- 00EE RET: PC <- popped address + 2 (R101). -/
def execRet (s : State) : Result :=
  .next (popPc s fun a popped => finishAt (a.toNat + 2) s popped)

/-- 1NNN JP: PC <- NNN (R102). -/
def execJp (nnn : Addr) (s : State) : Result := .next { s with pc := nnn }

/-- 2NNN CALL: push the address of this CALL, PC <- NNN (R103). -/
def execCall (nnn : Addr) (s : State) : Result :=
  .next (pushPc s fun pushed => { pushed with pc := nnn })

/-- 3XNN SE Vx, NN (R104). -/
def execSeImm (x : Nibble) (nn : Byte) (s : State) : Result :=
  .next (finishSkipIf (s.reg x == nn) s)

/-- 4XNN SNE Vx, NN (R105). -/
def execSneImm (x : Nibble) (nn : Byte) (s : State) : Result :=
  .next (finishSkipIf (s.reg x != nn) s)

/-- 5XYN SE Vx, Vy (R106). -/
def execSeReg (x y : Nibble) (s : State) : Result :=
  .next (finishSkipIf (s.reg x == s.reg y) s)

/-- 9XYN SNE Vx, Vy (R107). -/
def execSneReg (x y : Nibble) (s : State) : Result :=
  .next (finishSkipIf (s.reg x != s.reg y) s)

/-- BNNN JP V0, NNN: PC <- checked(NNN + V0) (R108). -/
def execJpV0 (nnn : Addr) (s : State) : Result :=
  .next (finishAt (nnn.toNat + (s.reg 0x0).toNat) s s)

end Sys2Proof.Machine
end

