-- ==== Sys2Proof/Machine/Index.lean ====
section
/-! DEFINITION. Index register and memory block (43_index_memory.md). -/

namespace Sys2Proof.Machine

/-- ANNN LD I, NNN (R140). -/
def execLdI (nnn : Addr) (s : State) : Result := .next (finishNext s { s with i := nnn })

/-- FX1E ADD I, Vx: the sum masked to 12 bits, VF = 1 iff it reached 4096 (R141). -/
def execAddIVx (x : Nibble) (s : State) : Result :=
  .next (finishNext s
    ({ s with i := BitVec.ofNat 12 (s.i.toNat + (s.reg x).toNat) }.setReg 0xF
      (indexCarryFlag s.i (s.reg x))))

/-- FX29 LD F, Vx: the glyph address of digit Vx (R142). -/
def execLdFVx (x : Nibble) (s : State) : Result :=
  .next (checkDigit x s
    (finishNext s { s with i := BitVec.ofNat 12 (glyphAddr (s.reg x).toNat) }))

/-- FX33 LD B, Vx: the decimal digits at I, I + 1, I + 2 (R143). -/
def execLdBVx (x : Nibble) (s : State) : Result :=
  .next (checkBounds (s.ea 2) s (checkFont (s.ea 0) s
    (finishNext s (s.storeBytes (s.ea 0) (bcdDigits (s.reg x))))))

/-- FX55 LD [I], Vx: V0..Vx to Mem[I..I + X]; I unchanged (R144). -/
def execLdMemVx (x : Nibble) (s : State) : Result :=
  .next (checkBounds (s.ea x.toNat) s (checkFont (s.ea 0) s
    (finishNext s (s.storeBytes (s.ea 0) (s.regsUpTo x)))))

/-- FX65 LD Vx, [I]: V0..Vx from Mem[I..I + X]; I unchanged (R145). -/
def execLdVxMem (x : Nibble) (s : State) : Result :=
  .next (checkBounds (s.ea x.toNat) s
    (finishNext s { s with v := loadBytes s.v 0 (s.readBytes (s.ea 0) (x.toNat + 1)) }))

end Sys2Proof.Machine
end

