-- ==== Sys2Proof/Machine/KeyTimer.lean ====
section
/-! DEFINITION. Keypad and timer instructions (45_keypad_timer_instr.md). -/

namespace Sys2Proof.Machine

/-- EX9E SKP Vx: skip if key Vx is held (R160). -/
def execSkp (x : Nibble) (s : State) : Result :=
  .next (checkKey x s (finishSkipIf (s.keyHeld (s.reg x).toNat) s))

/-- EXA1 SKNP Vx: skip if key Vx is not held (R161). -/
def execSknp (x : Nibble) (s : State) : Result :=
  .next (checkKey x s (finishSkipIf (!s.keyHeld (s.reg x).toNat) s))

/-- FX07 LD Vx, DT (R164). -/
def execLdVxDt (x : Nibble) (s : State) : Result := .next (finishNext s (s.setReg x s.dt))

/-- FX0A LD Vx, K: with no key newly pressed nothing is written and PC stays, so that the same
instruction runs again in the next cycle; else Vx <- the lowest newly pressed key (R162, R163). -/
def execLdVxK (x : Nibble) (s : State) : Result :=
  .next (if s.newly = 0 then s
    else finishNext s (s.setReg x (BitVec.ofNat 8 (lowest s.newly))))

/-- FX15 LD DT, Vx (R165). -/
def execLdDtVx (x : Nibble) (s : State) : Result := .next (finishNext s { s with dt := s.reg x })

/-- FX18 LD ST, Vx: the sound timer and the tone gate (R166). -/
def execLdStVx (x : Nibble) (s : State) : Result := .next (finishNext s (s.setSound (s.reg x)))

end Sys2Proof.Machine
end

