-- ==== Sys2Proof/Machine/Cycle.lean ====
section
/-! DEFINITION. The cycle of a running core (40_cycle_and_fetch.md rules R80, R81): latch the key edges,
execute exactly one instruction, tick the timers if a tick is due. Phase (d) presents FB, which is
State's own field (R32), and changes nothing. -/

namespace Sys2Proof.Machine

/-- Phase (b): fetch, decode and run one instruction; a fetch or decode fault is taken (R83). -/
def executeOne (s : State) : Result :=
  match fetchDecode s with
  | .error (c, info) => .next (takeFault c info s)
  | .ok i => exec i s

/-- Phase (c): a tick if one is due and no fault was raised in phase (b) (R80, R81, D17); then this
cycle's input sample is spent. -/
def endCycle (p : Ports) (s : State) : State :=
  consumeSample (tickIf (s.status.cause == .run && p.tickDue) s)

/-- The state between phases (b) and (c): what an observer of tone_en may see in the middle of a
cycle (R33); it is no state of a run (log entry 22). -/
def afterInstruction (s : State) : Result := executeOne (latchKeys s)

/-- One cycle of a running core (R80). -/
def cycle (s : State) : Result :=
  match afterInstruction s with
  | .next t => .next (endCycle s.ports t)
  | .fault f => .fault f
  | .refused r => .refused r

end Sys2Proof.Machine
end

