-- ==== Sys2Proof/Machine/Reset.lean ====
section
/-! DEFINITION. Reset with a program image (70_reset_and_hazards.md rules R210, R211). Reset is an input
of the core beside its cycle, so it is a function of its own and no step calls it (log entry 21). -/

namespace Sys2Proof.Machine

/-- reset(image) for a machine with the parameters p: registers and devices at their reset values,
memory filled, the font written, then the image copied to 0x200 if it has at most 3584 bytes; a
longer one is rejected with LOAD_SIZE and nothing is copied (R211, D26). -/
def resetWith (p : Params) (image : List Byte) : State :=
  if progMax < image.length then takeFault .loadSize image.length (State.cleared p)
  else (State.cleared p).storeBytes progBase image

/-- Reset applied to a machine in any state, the stopped ones included: its parameters stay, and so do
the samples to come, which are the environment's; all else is as after the first reset (R175, R210,
D18). -/
def warmReset (image : List Byte) (s : State) : State :=
  { resetWith s.params image with env := s.env }

end Sys2Proof.Machine
end

