-- ==== Sys2Proof/Machine/Step.lean ====
section
/-! DEFINITION. The step of the core (R80, R87) and the host's way to place one instruction. -/

namespace Sys2Proof.Machine

/-- One cycle; a stopped core changes nothing (R87). -/
def step (s : State) : Host.Outcome State Fault Refusal :=
  if s.status.cause = .run then cycle s else .next s

/-- The instruction of the table word w, stored where the next step fetches from: at PC, high byte
first (R48, R82). -/
def State.withFetchWord (s : State) (nbits w : Nat) : State :=
  s.placeAtPc (tableWordBytes nbits w)

end Sys2Proof.Machine
end

