-- ==== Sys2Proof/Safety.lean ====
section
/-! DEFINITION. The terms in which claims about the machine are stated: a running core, a fault, the
shapes of an instruction's effect, the invariant of every step, and the pixels of a sprite. -/

namespace Sys2Proof.Machine

/-! ### Running and faulting -/

/-- The core executes cycles (R27). -/
def State.Running (s : State) : Prop := s.status.cause = .run

/-- The instruction i takes the fault c with the information word info in state s (R171): the next state
differs in status only, and PC still addresses the instruction (R172). -/
def FaultsWith (i : Instr) (s : State) (c : Cause) (info : Nat) : Prop :=
  exec i s = .next { s with status := { cause := c, info := BitVec.ofNat 32 info } }

/-! ### Runs -/

/-- A run of any finite number of cycles leads from one state to another (R88). Its inputs are those of
the first state's feed and, after them, the free ones. -/
inductive Reaches : State → State → Prop where
  | refl (s : State) : Reaches s s
  | cycle {s t u : State} (before : Reaches s t) (last : step t = .next u) : Reaches s u

/-! ### Shapes of an instruction's effect; each says that exec answers a next state -/

/-- i only advances: PC + 2, all else unchanged. -/
def OnlyAdvances (i : Instr) (s : State) : Prop :=
  exec i s = .next { s with pc := s.pc + 2 }

/-- i writes b to V[x] and advances; every other register and all other state is unchanged. -/
def WritesReg (i : Instr) (s : State) (x : Nibble) (b : Byte) : Prop :=
  ∃ t, exec i s = .next t ∧ t = { s with v := t.v, pc := s.pc + 2 } ∧
    t.reg x = b ∧ ∀ r, r ≠ x → t.reg r = s.reg r

/-- i writes b to V[x] and then the flag to VF, and advances: with x = 0xF the flag is what VF ends
with; every other register and all other state is unchanged. -/
def WritesRegAndFlag (i : Instr) (s : State) (x : Nibble) (b flag : Byte) : Prop :=
  ∃ t, exec i s = .next t ∧ t = { s with v := t.v, pc := s.pc + 2 } ∧
    t.reg 0xF = flag ∧ (x ≠ 0xF → t.reg x = b) ∧ ∀ r, r ≠ x → r ≠ 0xF → t.reg r = s.reg r

/-- i stores the n bytes f 0, ..., f (n - 1) at lo, lo + 1, ... and advances; every other byte and all
other state is unchanged. -/
def StoresBytes (i : Instr) (s : State) (lo n : Nat) (f : Nat → Byte) : Prop :=
  ∃ t, exec i s = .next t ∧ t = { s with mem := t.mem, pc := s.pc + 2 } ∧
    (∀ k, k < n → t.readByte (lo + k) = f k) ∧
    ∀ a, (a < lo ∨ lo + n ≤ a) → t.readByte a = s.readByte a

/-- i skips the next instruction exactly when c holds, and changes PC only; a target above 0xFFF is
PC_RANGE(target). -/
def SkipsExactlyIf (i : Instr) (s : State) (c : Prop) : Prop :=
  (c → s.pc.toNat + 4 ≤ 0xFFF → exec i s = .next { s with pc := s.pc + 4 }) ∧
  (c → 0xFFF < s.pc.toNat + 4 → FaultsWith i s .pcRange (s.pc.toNat + 4)) ∧
  (¬c → s.pc.toNat + 2 ≤ 0xFFF → exec i s = .next { s with pc := s.pc + 2 }) ∧
  (¬c → 0xFFF < s.pc.toNat + 2 → FaultsWith i s .pcRange (s.pc.toNat + 2))

/-- The default advance: where PC + 2 is an address the effect happens; at 0xFFE and 0xFFF the
instruction takes PC_RANGE(PC + 2). -/
def OrPcRange (i : Instr) (s : State) (effect : Prop) : Prop :=
  (s.pc.toNat + 2 ≤ 0xFFF → effect) ∧
  (0xFFF < s.pc.toNat + 2 → FaultsWith i s .pcRange (s.pc.toNat + 2))

/-! ### What a fetch sees after a store -/

/-- The byte at address a once the n bytes f 0, ..., f (n - 1) have been stored at lo, lo + 1, ... in
state s (R50, R51). -/
def State.byteAfterStore (s : State) (lo n : Nat) (f : Nat → Byte) (a : Nat) : Byte :=
  if lo ≤ a ∧ a < lo + n then f (a - lo) else s.readByte a

/-- With PC at a, state t fetches the word of the bytes that g gives for a and a + 1, high byte first, and
decodes that word (R82, R83). -/
def FetchesWord (t : State) (a : Addr) (g : Nat → Byte) : Prop :=
  ({ t with pc := a } : State).fetchWord = g a.toNat ++ g (a.toNat + 1) ∧
  ∀ i, decode (g a.toNat ++ g (a.toNat + 1)) = .ok i → fetchDecode { t with pc := a } = .ok i

/-! ### The key wait -/

/-- The core stands at FX0A with no press edge in the coming cycle: the view of rule R163. -/
def AwaitingKey (s : State) : Prop :=
  s.Running ∧ s.ports.keyPressed = 0 ∧ ∃ x, fetchDecode s = .ok (.ldVxK x)

/-! ### Sprites, pixel by pixel -/

/-- A sprite of n rows at column x, row y has an on pixel at column c, row r of the screen: bit 7 - j of
its byte k lies at column (x + j) mod 64 (wrapping to the right, R151) and at row y + k, which is off
the screen past 31 (R151) or taken mod 32 under QUIRK_VWRAP (R153). -/
def SpritePixel (s : State) (x y : Byte) (n : Nat) (c : Fin 64) (r : Fin 32) : Prop :=
  ∃ k j, k < n ∧ j < 8 ∧ (x.toNat + j) % 64 = c.val ∧
    (if s.params.quirkVwrap then (y.toNat + k) % 32 = r.val else y.toNat + k = r.val) ∧
    (s.readByte (s.i.toNat + k)).getLsbD (7 - j) = true

/-! ### The invariant of every step -/

/-- What every step keeps and every reset establishes. -/
structure Inv (s : State) : Prop where
  /-- Memory is in its canonical form. -/
  memWf : s.mem.wf s.fill = true
  /-- The font region holds FONT (R43: "Written once at startup, never mutated"). -/
  font : ∀ a, (h : a < 80) → s.readByte a = s.params.font[a]
  /-- The tone gate is on exactly when the sound timer is not zero (R22, R200). -/
  tone : s.toneEn = true ↔ s.st ≠ 0
  /-- info is 0 while cause = RUN (R27). -/
  info : s.status.cause = .run → s.status.info = 0

end Sys2Proof.Machine
end

