-- ==== Sys2Proof/Certificates/Slice0/Obligations.lean ====
section
/-! DEFINITION. The statements. Each docstring names the rule of spec/ it formalises; where a clause
rests on a decision the spec marks as its own (92_eei_decisions.md D<n>) it says so, and names the
log entry. -/

open Sys2Proof Sys2Proof.Machine

/-! ### Control flow (41_flow_control.md) -/

/-- R100. The no-op SYS, for every NNN: only PC changes; PC_RANGE at 0xFFE and 0xFFF. The PC_RANGE
clause is decisions D5, D22 of the spec (log entries 9, 19). -/
def Obligations.SysOnlyAdvances : Prop :=
  ∀ nnn : Addr,
    (nnn.setWidth 8 ≠ 0xE0#8 → nnn.setWidth 8 ≠ 0xEE#8 → decode (0x0#4 ++ nnn) = .ok (.sys nnn)) ∧
    ∀ s : State, OrPcRange (.sys nnn) s (OnlyAdvances (.sys nnn) s)

/-- RET, for every X: PC is the popped address plus 2, SP falls by one, the entry stays; the two faults
change nothing but status. That X is ignored is decision D12 of the spec (30_encoding.md rule R66; log
entry 15); the faults, their information words and the entry index are decisions D5, D6, D22, D23 (log
entries 9, 10, 19). -/
def Obligations.RetPopsAndAdvances : Prop :=
  ∀ (x : Nibble) (s : State),
    decode (0x0#4 ++ x ++ 0xEE#8) = .ok (.ret x) ∧
    (s.sp.val = 0 → FaultsWith (.ret x) s .stackUnderflow s.pc.toNat) ∧
    ∀ k : Fin 16, s.sp.val = k.val + 1 →
      (s.stack[k].toNat + 2 ≤ 0xFFF →
        exec (.ret x) s = .next { s with sp := k.castSucc, pc := s.stack[k] + 2 }) ∧
      (0xFFF < s.stack[k].toNat + 2 →
        FaultsWith (.ret x) s .pcRange (s.stack[k].toNat + 2))

/-- R102. JP: PC is NNN, whatever NNN is, and nothing else changes. -/
def Obligations.JpSetsPc : Prop :=
  ∀ nnn : Addr, decode (0x1#4 ++ nnn) = .ok (.jp nnn) ∧
    ∀ s : State, exec (.jp nnn) s = .next { s with pc := nnn }

/-- CALL: the entry at the old SP receives the address of the CALL itself, SP rises by one, PC is NNN;
with 16 addresses on the stack, STACK_OVERFLOW and nothing is pushed. The fault and the entry index
are decisions D6, D23 of the spec (log entry 10). -/
def Obligations.CallPushesItsOwnAddress : Prop :=
  ∀ nnn : Addr, decode (0x2#4 ++ nnn) = .ok (.call nnn) ∧
    ∀ s : State,
      (∀ k : Fin 16, s.sp.val = k.val →
        ∃ t, exec (.call nnn) s = .next t ∧
          t = { s with stack := t.stack, sp := k.succ, pc := nnn } ∧
          t.stack[k] = s.pc ∧ ∀ j : Fin 16, j ≠ k → t.stack[j] = s.stack[j]) ∧
      (s.sp.val = 16 → FaultsWith (.call nnn) s .stackOverflow s.pc.toNat)

/-- R104, R105. SE and SNE against an immediate. The PC_RANGE clause is decisions D5, D22 of the spec
(log entries 9, 19). -/
def Obligations.SkipOnImmediate : Prop :=
  ∀ (x : Nibble) (nn : Byte),
    decode (0x3#4 ++ x ++ nn) = .ok (.seImm x nn) ∧
    decode (0x4#4 ++ x ++ nn) = .ok (.sneImm x nn) ∧
    ∀ s : State,
      SkipsExactlyIf (.seImm x nn) s (s.reg x = nn) ∧
      SkipsExactlyIf (.sneImm x nn) s (s.reg x ≠ nn)

/-- SE and SNE on two registers, for every N. That N is ignored is decision D12 of the spec (log entry
15). The PC_RANGE clause is decisions D5, D22 of the spec (log entries 9, 19). -/
def Obligations.SkipOnRegisters : Prop :=
  ∀ x y n : Nibble,
    decode (0x5#4 ++ x ++ y ++ n) = .ok (.seReg x y n) ∧
    decode (0x9#4 ++ x ++ y ++ n) = .ok (.sneReg x y n) ∧
    ∀ s : State,
      SkipsExactlyIf (.seReg x y n) s (s.reg x = s.reg y) ∧
      SkipsExactlyIf (.sneReg x y n) s (s.reg x ≠ s.reg y)

/-- JP V0: PC is the unbounded sum NNN + V0, or PC_RANGE(NNN + V0). The fault is decision D5 of the
spec (log entry 9). -/
def Obligations.JpV0AddsV0 : Prop :=
  ∀ nnn : Addr, decode (0xB#4 ++ nnn) = .ok (.jpV0 nnn) ∧
    ∀ s : State,
      (nnn.toNat + (s.reg 0x0).toNat ≤ 0xFFF →
        exec (.jpV0 nnn) s =
          .next { s with pc := BitVec.ofNat 12 (nnn.toNat + (s.reg 0x0).toNat) }) ∧
      (0xFFF < nnn.toNat + (s.reg 0x0).toNat →
        FaultsWith (.jpV0 nnn) s .pcRange (nnn.toNat + (s.reg 0x0).toNat))

/-! ### Load, arithmetic, logic, shift, random (42_load_alu_random.md) -/

/-- R120. LD Vx, NN. The PC_RANGE clause is decisions D5, D22 of the spec (log entries 9, 19). -/
def Obligations.LdImmediate : Prop :=
  ∀ (x : Nibble) (nn : Byte), decode (0x6#4 ++ x ++ nn) = .ok (.ldImm x nn) ∧
    ∀ s : State, OrPcRange (.ldImm x nn) s (WritesReg (.ldImm x nn) s x nn)

/-- ADD Vx, NN: the sum mod 256 and the carry in VF. With X = 0xF the flag stays: decision D10 of the
spec (log entry 14). The PC_RANGE clause is decisions D5, D22 of the spec (log entries 9, 19). -/
def Obligations.AddImmediate : Prop :=
  ∀ (x : Nibble) (nn : Byte), decode (0x7#4 ++ x ++ nn) = .ok (.addImm x nn) ∧
    ∀ s : State, OrPcRange (.addImm x nn) s
      (WritesRegAndFlag (.addImm x nn) s x
        (BitVec.ofNat 8 (((s.reg x).toNat + nn.toNat) % 256))
        (if (s.reg x).toNat + nn.toNat ≥ 256 then 1 else 0))

/-- R122. LD Vx, Vy. The PC_RANGE clause is decisions D5, D22 of the spec (log entries 9, 19). -/
def Obligations.LdRegister : Prop :=
  ∀ x y : Nibble, decode (0x8#4 ++ x ++ y ++ 0x0#4) = .ok (.ldReg x y) ∧
    ∀ s : State, OrPcRange (.ldReg x y) s (WritesReg (.ldReg x y) s x (s.reg y))

/-- OR, AND, XOR, bit by bit. That VF is left alone (unless X = 0xF) is decision D11 of the spec (log
entry 14). The PC_RANGE clause is decisions D5, D22 of the spec (log entries 9, 19). -/
def Obligations.LogicOperations : Prop :=
  ∀ x y : Nibble,
    decode (0x8#4 ++ x ++ y ++ 0x1#4) = .ok (.orReg x y) ∧
    decode (0x8#4 ++ x ++ y ++ 0x2#4) = .ok (.andReg x y) ∧
    decode (0x8#4 ++ x ++ y ++ 0x3#4) = .ok (.xorReg x y) ∧
    ∀ (s : State) (b : Byte),
      ((∀ k : Fin 8, b[k] = ((s.reg x)[k] || (s.reg y)[k])) →
        OrPcRange (.orReg x y) s (WritesReg (.orReg x y) s x b)) ∧
      ((∀ k : Fin 8, b[k] = ((s.reg x)[k] && (s.reg y)[k])) →
        OrPcRange (.andReg x y) s (WritesReg (.andReg x y) s x b)) ∧
      ((∀ k : Fin 8, b[k] = ((s.reg x)[k] != (s.reg y)[k])) →
        OrPcRange (.xorReg x y) s (WritesReg (.xorReg x y) s x b))

/-- R126. ADD Vx, Vy: the sum mod 256 and the carry in VF. The PC_RANGE clause is decisions D5, D22 of
the spec (log entries 9, 19). With X = 0xF the flag stays: decision D10 (log entry 14). -/
def Obligations.AddRegister : Prop :=
  ∀ x y : Nibble, decode (0x8#4 ++ x ++ y ++ 0x4#4) = .ok (.addReg x y) ∧
    ∀ s : State, OrPcRange (.addReg x y) s
      (WritesRegAndFlag (.addReg x y) s x
        (BitVec.ofNat 8 (((s.reg x).toNat + (s.reg y).toNat) % 256))
        (if (s.reg x).toNat + (s.reg y).toNat ≥ 256 then 1 else 0))

/-- R127. SUB Vx, Vy: Vx - Vy mod 256 and NOT borrow in VF. The PC_RANGE clause is decisions D5, D22 of
the spec (log entries 9, 19). With X = 0xF the flag stays: decision D10 (log entry 14). -/
def Obligations.SubRegister : Prop :=
  ∀ x y : Nibble, decode (0x8#4 ++ x ++ y ++ 0x5#4) = .ok (.subReg x y) ∧
    ∀ s : State, OrPcRange (.subReg x y) s
      (WritesRegAndFlag (.subReg x y) s x
        (BitVec.ofNat 8 (((s.reg x).toNat + 256 - (s.reg y).toNat) % 256))
        (if (s.reg x).toNat ≥ (s.reg y).toNat then 1 else 0))

/-- R128. SHR Vx, for every Y (ignored): bit k of the result is bit k + 1 of Vx, VF the bit shifted
out. The PC_RANGE clause is decisions D5, D22 of the spec (log entries 9, 19). With X = 0xF the flag
stays: decision D10 (log entry 14). -/
def Obligations.ShiftRight : Prop :=
  ∀ x y : Nibble, decode (0x8#4 ++ x ++ y ++ 0x6#4) = .ok (.shr x y) ∧
    ∀ s : State, OrPcRange (.shr x y) s
      (WritesRegAndFlag (.shr x y) s x
        (BitVec.ofNat 8 ((s.reg x).toNat / 2)) (BitVec.ofNat 8 ((s.reg x).toNat % 2)))

/-- R129. SUBN Vx, Vy: Vy - Vx mod 256 and NOT borrow in VF. The PC_RANGE clause is decisions D5, D22
of the spec (log entries 9, 19). With X = 0xF the flag stays: decision D10 (log entry 14). -/
def Obligations.SubNegated : Prop :=
  ∀ x y : Nibble, decode (0x8#4 ++ x ++ y ++ 0x7#4) = .ok (.subnReg x y) ∧
    ∀ s : State, OrPcRange (.subnReg x y) s
      (WritesRegAndFlag (.subnReg x y) s x
        (BitVec.ofNat 8 (((s.reg y).toNat + 256 - (s.reg x).toNat) % 256))
        (if (s.reg y).toNat ≥ (s.reg x).toNat then 1 else 0))

/-- R130. SHL Vx, for every Y (ignored): twice Vx mod 256, VF the old bit 7. The PC_RANGE clause is
decisions D5, D22 of the spec (log entries 9, 19). With X = 0xF the flag stays: decision D10 (log entry
14). -/
def Obligations.ShiftLeft : Prop :=
  ∀ x y : Nibble, decode (0x8#4 ++ x ++ y ++ 0xE#4) = .ok (.shl x y) ∧
    ∀ s : State, OrPcRange (.shl x y) s
      (WritesRegAndFlag (.shl x y) s x
        (BitVec.ofNat 8 ((s.reg x).toNat * 2 % 256)) (BitVec.ofNat 8 ((s.reg x).toNat / 128)))

/-- RND: the random byte of this cycle AND NN, for every sample p the environment may give, and for the
free value where it gave none. The free draw is decision D3 of the spec (log entry 1); nothing is
assumed of the byte. The PC_RANGE clause is decisions D5, D22 of the spec (log entries 9, 19). -/
def Obligations.RndMasksTheDraw : Prop :=
  ∀ (x : Nibble) (nn : Byte), decode (0xC#4 ++ x ++ nn) = .ok (.rnd x nn) ∧
    ∀ s : State,
      (∀ p rest, s.env.pending = p :: rest →
        OrPcRange (.rnd x nn) s (WritesReg (.rnd x nn) s x (p.rnd &&& nn))) ∧
      (s.env.pending = [] →
        OrPcRange (.rnd x nn) s (WritesReg (.rnd x nn) s x ((Config.freePorts s.env.drawn).rnd &&& nn)))

/-! ### Index register and memory block (43_index_memory.md) -/

/-- R140. LD I, NNN. The PC_RANGE clause is decisions D5, D22 of the spec (log entries 9, 19). -/
def Obligations.LdIndex : Prop :=
  ∀ nnn : Addr, decode (0xA#4 ++ nnn) = .ok (.ldI nnn) ∧
    ∀ s : State, OrPcRange (.ldI nnn) s
      (exec (.ldI nnn) s = .next { s with i := nnn, pc := s.pc + 2 })

/-- R141. ADD I, Vx: the sum masked to 12 bits, VF = 1 iff the unmasked sum reached 4096; with X = 0xF
the old VF is the addend. The PC_RANGE clause is decisions D5, D22 of the spec (log entries 9, 19). -/
def Obligations.AddIndex : Prop :=
  ∀ x : Nibble, decode (0xF#4 ++ x ++ 0x1E#8) = .ok (.addIVx x) ∧
    ∀ s : State, OrPcRange (.addIVx x) s
      (∃ t, exec (.addIVx x) s = .next t ∧
        t = { s with
              v := t.v
              i := BitVec.ofNat 12 ((s.i.toNat + (s.reg x).toNat) % 4096)
              pc := s.pc + 2 } ∧
        t.reg 0xF = (if s.i.toNat + (s.reg x).toNat ≥ 4096 then 1 else 0) ∧
        ∀ r, r ≠ 0xF → t.reg r = s.reg r)

/-- LD F, Vx: I is FONT_BASE + 5 * d for a digit d; a larger value is DIGIT_INDEX, checked before
PC_RANGE. The fault, the order and the glyph layout are decisions D9, D21, D20 of the spec (log entries
13, 19, 24). The PC_RANGE clause is decisions D5, D22 of the spec (log entries 9, 19). -/
def Obligations.LdGlyphAddress : Prop :=
  ∀ x : Nibble, decode (0xF#4 ++ x ++ 0x29#8) = .ok (.ldFVx x) ∧
    ∀ s : State,
      ((s.reg x).toNat ≤ 15 → OrPcRange (.ldFVx x) s
        (exec (.ldFVx x) s =
          .next { s with i := BitVec.ofNat 12 (5 * (s.reg x).toNat), pc := s.pc + 2 })) ∧
      (15 < (s.reg x).toNat → FaultsWith (.ldFVx x) s .digitIndex (s.reg x).toNat)

/-- LD B, Vx: the decimal digits of Vx at I, I + 1, I + 2, hundreds first, and no other byte changes;
the faults in the order MEM_BOUNDS, FONT_WRITE, PC_RANGE with no byte written. The faults and their
order are decisions D4, D8, D21 of the spec (log entries 8, 12, 19). The PC_RANGE clause is decisions
D5, D22 of the spec (log entries 9, 19). -/
def Obligations.StoreBcd : Prop :=
  ∀ x : Nibble, decode (0xF#4 ++ x ++ 0x33#8) = .ok (.ldBVx x) ∧
    ∀ s : State,
      (0xFFF < s.i.toNat + 2 → FaultsWith (.ldBVx x) s .memBounds (s.i.toNat + 2)) ∧
      (s.i.toNat < 0x050 → FaultsWith (.ldBVx x) s .fontWrite s.i.toNat) ∧
      (0x050 ≤ s.i.toNat → s.i.toNat + 2 ≤ 0xFFF → OrPcRange (.ldBVx x) s
        (∀ h t o : Nat, h < 10 → t < 10 → o < 10 → (s.reg x).toNat = 100 * h + 10 * t + o →
          StoresBytes (.ldBVx x) s s.i.toNat 3 (fun k =>
            if k = 0 then BitVec.ofNat 8 h else if k = 1 then BitVec.ofNat 8 t else BitVec.ofNat 8 o)))

/-- LD [I], Vx: V0..Vx at I, I + 1, ..., I + X, I and every other byte unchanged; the faults in the
order MEM_BOUNDS, FONT_WRITE, PC_RANGE with no byte written. The faults and their order are decisions
D4, D8, D21 of the spec (log entries 8, 12, 19). The PC_RANGE clause is decisions D5, D22 of the spec
(log entries 9, 19). -/
def Obligations.StoreRegisters : Prop :=
  ∀ x : Nibble, decode (0xF#4 ++ x ++ 0x55#8) = .ok (.ldMemVx x) ∧
    ∀ s : State,
      (0xFFF < s.i.toNat + x.toNat → FaultsWith (.ldMemVx x) s .memBounds (s.i.toNat + x.toNat)) ∧
      (s.i.toNat < 0x050 → FaultsWith (.ldMemVx x) s .fontWrite s.i.toNat) ∧
      (0x050 ≤ s.i.toNat → s.i.toNat + x.toNat ≤ 0xFFF → OrPcRange (.ldMemVx x) s
        (StoresBytes (.ldMemVx x) s s.i.toNat (x.toNat + 1) (fun k => s.reg (BitVec.ofNat 4 k))))

/-- LD Vx, [I]: V0..Vx receive the bytes at I, I + 1, ..., I + X, every other register, I and memory
are unchanged; MEM_BOUNDS before PC_RANGE, no register written. The fault is decision D4 of the spec
(log entry 8). The PC_RANGE clause is decisions D5, D22 of the spec (log entries 9, 19). -/
def Obligations.LoadRegisters : Prop :=
  ∀ x : Nibble, decode (0xF#4 ++ x ++ 0x65#8) = .ok (.ldVxMem x) ∧
    ∀ s : State,
      (0xFFF < s.i.toNat + x.toNat → FaultsWith (.ldVxMem x) s .memBounds (s.i.toNat + x.toNat)) ∧
      (s.i.toNat + x.toNat ≤ 0xFFF → OrPcRange (.ldVxMem x) s
        (∃ t, exec (.ldVxMem x) s = .next t ∧ t = { s with v := t.v, pc := s.pc + 2 } ∧
          (∀ r : Nibble, r.toNat ≤ x.toNat → t.reg r = s.readByte (s.i.toNat + r.toNat)) ∧
          ∀ r : Nibble, x.toNat < r.toNat → t.reg r = s.reg r))

/-! ### Display (44_display.md) -/

/-- R150. CLS, for every X: all 32 rows are zero, VF is not written. That X is ignored is decision D12 of
the spec (log entry 15). The PC_RANGE clause is decisions D5, D22 of the spec (log entries 9, 19). -/
def Obligations.ClsClearsTheScreen : Prop :=
  ∀ x : Nibble, decode (0x0#4 ++ x ++ 0xE0#8) = .ok (.cls x) ∧
    ∀ s : State, OrPcRange (.cls x) s
      (∃ t, exec (.cls x) s = .next t ∧ t = { s with fb := t.fb, pc := s.pc + 2 } ∧
        ∀ r : Fin 32, t.fb[r] = 0)

/-- DRW, pixel by pixel: with (x, y) = (V[X], V[Y]) read before VF is written, every pixel of the
screen that the sprite Mem[I..I + N - 1] has on is flipped and every other one stays; VF is 1 exactly
when a flipped pixel was on; no other register, and nothing else, changes. The sprite wraps to the
right, and clips at the bottom or (QUIRK_VWRAP) wraps there. MEM_BOUNDS covers the whole range I..I + N
- 1 and comes before PC_RANGE. Coordinates, quirk and bounds are decisions D13, D14 of the spec (log
entries 4, 8, 16). The PC_RANGE clause is decisions D5, D22 of the spec (log entries 9, 19). -/
def Obligations.DrwFlipsTheSpritesPixels : Prop :=
  ∀ x y n : Nibble, decode (0xD#4 ++ x ++ y ++ n) = .ok (.drw x y n) ∧
    ∀ s : State,
      (0 < n.toNat → 0xFFF < s.i.toNat + n.toNat - 1 →
        FaultsWith (.drw x y n) s .memBounds (s.i.toNat + n.toNat - 1)) ∧
      (n.toNat = 0 ∨ s.i.toNat + n.toNat - 1 ≤ 0xFFF → OrPcRange (.drw x y n) s
        (∃ t, exec (.drw x y n) s = .next t ∧ t = { s with v := t.v, fb := t.fb, pc := s.pc + 2 } ∧
          (∀ c r, SpritePixel s (s.reg x) (s.reg y) n.toNat c r → t.pixel c r = !s.pixel c r) ∧
          (∀ c r, ¬SpritePixel s (s.reg x) (s.reg y) n.toNat c r → t.pixel c r = s.pixel c r) ∧
          ((∃ c r, SpritePixel s (s.reg x) (s.reg y) n.toNat c r ∧ s.pixel c r = true) →
            t.reg 0xF = 1) ∧
          ((¬∃ c r, SpritePixel s (s.reg x) (s.reg y) n.toNat c r ∧ s.pixel c r = true) →
            t.reg 0xF = 0) ∧
          ∀ r, r ≠ 0xF → t.reg r = s.reg r))

/-- "CLS followed by any DRW collision check always yields VF=0 on the first draw" (44_display.md rule
R154, which the spec marks as derived). -/
def Obligations.FirstDrawAfterClsReportsNoCollision : Prop :=
  ∀ (z x y n : Nibble) (s t u : State),
    s.Running → exec (.cls z) s = .next t → t.Running → exec (.drw x y n) t = .next u → u.Running →
    u.reg 0xF = 0

/-- Drawing the same sprite twice at the same coordinates restores the framebuffer, and the second draw
leaves VF = 1 exactly when some pixel of the sprite on the screen was off before the first, else 0
(44_display.md rule R154, which the spec marks as derived). X or Y may be VF where the first draw left
the coordinate as it was. -/
def Obligations.DrawingTwiceRestoresTheScreen : Prop :=
  ∀ (x y n : Nibble) (s t u : State),
    s.Running → exec (.drw x y n) s = .next t → t.Running →
    t.reg x = s.reg x → t.reg y = s.reg y →
    exec (.drw x y n) t = .next u → u.Running →
    u.fb = s.fb ∧
    ((∃ c r, SpritePixel s (s.reg x) (s.reg y) n.toNat c r ∧ s.pixel c r = false) →
      u.reg 0xF = 1) ∧
    ((¬∃ c r, SpritePixel s (s.reg x) (s.reg y) n.toNat c r ∧ s.pixel c r = false) →
      u.reg 0xF = 0)

/-! ### Keypad and timers (45_keypad_timer_instr.md) -/

/-- SKP and SKNP: skip on key V[X] held, not held; a key above 15 is KEY_INDEX, checked first. The
fault and the order are decisions D9, D21 of the spec (log entries 13, 19). The PC_RANGE clause is
decisions D5, D22 of the spec (log entries 9, 19). -/
def Obligations.SkipOnKey : Prop :=
  ∀ x : Nibble,
    decode (0xE#4 ++ x ++ 0x9E#8) = .ok (.skp x) ∧
    decode (0xE#4 ++ x ++ 0xA1#8) = .ok (.sknp x) ∧
    ∀ s : State,
      (∀ k : Fin 16, (s.reg x).toNat = k.val →
        SkipsExactlyIf (.skp x) s (s.held[k] = true) ∧
        SkipsExactlyIf (.sknp x) s (s.held[k] = false)) ∧
      (15 < (s.reg x).toNat →
        FaultsWith (.skp x) s .keyIndex (s.reg x).toNat ∧
        FaultsWith (.sknp x) s .keyIndex (s.reg x).toNat)

/-- R164. LD Vx, DT. The PC_RANGE clause is decisions D5, D22 of the spec (log entries 9, 19). -/
def Obligations.LdFromDelayTimer : Prop :=
  ∀ x : Nibble, decode (0xF#4 ++ x ++ 0x07#8) = .ok (.ldVxDt x) ∧
    ∀ s : State, OrPcRange (.ldVxDt x) s (WritesReg (.ldVxDt x) s x s.dt)

/-- R162. LD Vx, K: with no key newly pressed nothing changes, PC included, and no fault is possible;
else Vx receives the lowest-numbered newly pressed key. The PC_RANGE clause is decisions D5, D22 of the
spec (log entries 9, 19). -/
def Obligations.KeyWait : Prop :=
  ∀ x : Nibble, decode (0xF#4 ++ x ++ 0x0A#8) = .ok (.ldVxK x) ∧
    ∀ s : State,
      (s.newly = 0 → exec (.ldVxK x) s = .next s) ∧
      ∀ k : Fin 16, s.newly[k] = true → (∀ j : Fin 16, j < k → s.newly[j] = false) →
        OrPcRange (.ldVxK x) s (WritesReg (.ldVxK x) s x (BitVec.ofNat 8 k.val))

/-- R165. LD DT, Vx; the tick of the same cycle then decrements the new value (`TickCountsDown`,
`StepRunsDecodedInstruction`). The PC_RANGE clause is decisions D5, D22 of the spec (log entries 9,
19). -/
def Obligations.LdDelayTimer : Prop :=
  ∀ x : Nibble, decode (0xF#4 ++ x ++ 0x15#8) = .ok (.ldDtVx x) ∧
    ∀ s : State, OrPcRange (.ldDtVx x) s
      (exec (.ldDtVx x) s = .next { s with dt := s.reg x, pc := s.pc + 2 })

/-- LD ST, Vx: ST receives Vx and the tone gate is on exactly when Vx is not zero. That zero turns the
tone off is decision D16 of the spec (log entry 18). The PC_RANGE clause is decisions D5, D22 of the
spec (log entries 9, 19). -/
def Obligations.LdSoundTimer : Prop :=
  ∀ x : Nibble, decode (0xF#4 ++ x ++ 0x18#8) = .ok (.ldStVx x) ∧
    ∀ s : State, OrPcRange (.ldStVx x) s
      (∃ t, exec (.ldStVx x) s = .next t ∧
        t = { s with st := s.reg x, toneEn := t.toneEn, pc := s.pc + 2 } ∧
        (t.toneEn = true ↔ s.reg x ≠ 0))

/-! ### The cycle (40_cycle_and_fetch.md) -/

/-- R80. The cycle: a stopped core changes nothing; otherwise the key latch is updated, exactly one
instruction is fetched, decoded and executed, a fault ends the cycle, and else a tick is taken if one
is due; every state has a next state. The cycle's input sample is spent (log entry 1). That a faulting
cycle takes no tick and that the core then stops is decision D17 (log entries 6, 7). -/
def Obligations.StepRunsDecodedInstruction : Prop :=
  ∀ s : State,
    (∃ t, step s = .next t) ∧
    (¬s.Running → step s = .next s) ∧
    ∀ (i : Instr) (a t : State), s.Running →
      a = { s with
            held := (s.held ||| s.ports.keyPressed) &&& ~~~s.ports.keyReleased
            newly := s.ports.keyPressed } →
      s.pc.toNat + 1 ≤ 0xFFF →
      decode (s.readByte s.pc.toNat ++ s.readByte (s.pc.toNat + 1)) = .ok i →
      exec i a = .next t →
      (¬t.Running → step s = .next (consumeSample t)) ∧
      (t.Running → s.ports.tickDue = false → step s = .next (consumeSample t)) ∧
      (t.Running → s.ports.tickDue = true → step s = .next (consumeSample (tick t)))

/-- A fetch at PC = 0xFFF is FETCH_BOUNDS(0xFFF); an illegal word is DECODE with byte0, byte1 and PC in
the information word. In both the key latch is updated, no tick is taken and nothing else changes.
The fetch fault and the codes are decisions D5, D17, D22 of the spec (log entries 6, 7, 9, 19). -/
def Obligations.FetchAndDecodeFaults : Prop :=
  ∀ s a : State, s.Running →
    a = { s with
          held := (s.held ||| s.ports.keyPressed) &&& ~~~s.ports.keyReleased
          newly := s.ports.keyPressed } →
    (s.pc = 0xFFF →
      step s = .next (consumeSample { a with status := { cause := .fetchBounds, info := 0xFFF } })) ∧
    ∀ e, s.pc.toNat + 1 ≤ 0xFFF →
      decode (s.readByte s.pc.toNat ++ s.readByte (s.pc.toNat + 1)) = .error e →
      step s = .next (consumeSample { a with status := {
        cause := .decode
        info := BitVec.ofNat 32 ((s.readByte s.pc.toNat).toNat * 2 ^ 24 +
          (s.readByte (s.pc.toNat + 1)).toNat * 2 ^ 16 + s.pc.toNat) } })

/-- R87. A stopped core changes nothing in any number of cycles, whatever the inputs; only reset leaves
that state. Reset applied to any state, running or stopped, has the effect of the first reset with the
machine's parameters, for an accepted and for a rejected image alike, and leaves the environment's
samples alone; the core then runs exactly if the image has at most 3584 bytes. The status register
and reset at any time are decisions D17, D18, D26 of the spec (log entries 6, 21); the samples are the
model's own (log entry 1). -/
def Obligations.StoppedCoreNeverChanges : Prop :=
  (∀ s t : State, ¬s.Running → Reaches s t → t = s) ∧
  ∀ (s : State) (image : List Byte),
    warmReset image s = { resetWith s.params image with env := s.env } ∧
    ((warmReset image s).Running ↔ image.length ≤ 3584)

/-- R172, at the level of a cycle: whatever the fault, the state after the cycle is the state after
phase (a) with status written, PC still at the faulting instruction; no tick. The status register and
the skipped tick are decision D17 of the spec (log entries 6, 7). -/
def Obligations.FaultsArePrecise : Prop :=
  ∀ s t : State, s.Running → step s = .next t → ¬t.Running →
    t = consumeSample { s with
      held := (s.held ||| s.ports.keyPressed) &&& ~~~s.ports.keyReleased
      newly := s.ports.keyPressed
      status := t.status }

/-- The table of causes: which causes a cycle of a running core can raise and what the information word
then holds. The codes and words are decision D22 of the spec (log entry 19). -/
def Obligations.InformationWordOfEachCause : Prop :=
  ∀ s t : State, s.Running → step s = .next t →
    match t.status.cause with
    | .run => t.status.info = s.status.info
    | .loadSize => False
    | .decode => t.status.info.toNat % 2 ^ 16 = s.pc.toNat ∧
        ∃ e, decode (BitVec.ofNat 16 (t.status.info.toNat / 2 ^ 16)) = .error e
    | .stackOverflow => t.status.info.toNat = s.pc.toNat ∧ s.sp.val = 16
    | .stackUnderflow => t.status.info.toNat = s.pc.toNat ∧ s.sp.val = 0
    | .memBounds => 0x1000 ≤ t.status.info.toNat ∧ t.status.info.toNat ≤ 0x100E
    | .fetchBounds => t.status.info.toNat = 0xFFF ∧ s.pc = 0xFFF
    | .pcRange => 0x1000 ≤ t.status.info.toNat ∧ t.status.info.toNat ≤ 0x10FE
    | .fontWrite => t.status.info.toNat = s.i.toNat ∧ s.i.toNat < 0x050
    | .keyIndex => 15 < t.status.info.toNat ∧ t.status.info.toNat ≤ 255
    | .digitIndex => 15 < t.status.info.toNat ∧ t.status.info.toNat ≤ 255

/-- R190. The tick: each timer that is not 0 drops by one, the tone goes off when ST goes from 1 to 0 and
stays as it was otherwise; nothing else changes. -/
def Obligations.TickCountsDown : Prop :=
  ∀ s : State,
    tick s = { s with dt := (tick s).dt, st := (tick s).st, toneEn := (tick s).toneEn } ∧
    (tick s).dt.toNat = s.dt.toNat - 1 ∧
    (tick s).st.toNat = s.st.toNat - 1 ∧
    (s.st = 1 → (tick s).toneEn = false) ∧
    (s.st ≠ 1 → (tick s).toneEn = s.toneEn)

/-- The key latch, bit by bit: a key is held after phase (a) if it was held or pressed and is not
released; the newly pressed keys are the pressed ones; nothing else changes. A key in both masks is
decision D15 of the spec (log entry 17). -/
def Obligations.KeyLatchFollowsTheEdges : Prop :=
  ∀ s : State,
    latchKeys s = { s with held := (latchKeys s).held, newly := s.ports.keyPressed } ∧
    ∀ k : Fin 16,
      ((latchKeys s).held[k] = true ↔
        (s.held[k] = true ∨ s.ports.keyPressed[k] = true) ∧ s.ports.keyReleased[k] = false)

/-- While the core stands at FX0A and no press edge is reported, a cycle changes no register, no PC, no
memory and no status; keys are latched and a due tick is taken (45_keypad_timer_instr.md rules R162,
R163; the choice not to latch a press across cycles is decision D15, log entry 17). -/
def Obligations.KeyWaitBlocksUntilAPressEdge : Prop :=
  ∀ s : State, AwaitingKey s →
    ∃ t, step s = .next t ∧
      t = { s with
            held := s.held &&& ~~~s.ports.keyReleased
            newly := 0
            dt := t.dt
            st := t.st
            toneEn := t.toneEn
            env := t.env } ∧
      (s.ports.tickDue = false → t.dt = s.dt ∧ t.st = s.st ∧ t.toneEn = s.toneEn) ∧
      (s.ports.tickDue = true → t.dt = (tick s).dt ∧ t.st = (tick s).st ∧ t.toneEn = (tick s).toneEn)

/-- At most one tick per cycle: unless the cycle runs FX15, DT stays or drops by exactly one; unless it
runs FX18, so does ST (60_exceptions.md rule R191; decision D25, log entry 20). -/
def Obligations.TimersDropAtMostOncePerCycle : Prop :=
  ∀ s t : State, step s = .next t →
    ((∀ x, fetchDecode s ≠ .ok (.ldDtVx x)) → t.dt = s.dt ∨ t.dt.toNat + 1 = s.dt.toNat) ∧
    ((∀ x, fetchDecode s ≠ .ok (.ldStVx x)) → t.st = s.st ∨ t.st.toNat + 1 = s.st.toNat)

/-- Within one cycle the tone may go on and off again: FX18 with Vx = 1 and a due tick (10_state.md rule
R33, 45_keypad_timer_instr.md rule R166). That the state between phases (b) and (c) is the function
`afterInstruction` and no state of a run is the model's choice (log entry 22). -/
def Obligations.TonePulseWithinOneCycle : Prop :=
  ∀ (x : Nibble) (s : State), s.Running → fetchDecode s = .ok (.ldStVx x) → s.reg x = 1 →
    s.pc.toNat + 2 ≤ 0xFFF → s.ports.tickDue = true →
    ∃ m t, afterInstruction s = .next m ∧ m.toneEn = true ∧ m.st = 1 ∧
      step s = .next t ∧ t.toneEn = false ∧ t.st = 0 ∧ t.pc = s.pc + 2

/-! ### Whole-machine rules -/

/-- R20. Nothing but FX15 and FX18 sets the timers and nothing but the tick decrements them: no other
instruction changes DT, ST or the tone gate, nothing else in a cycle without a due tick changes a
timer, and the tick never takes a timer below 0. -/
def Obligations.TimersHaveOnlyTheirWriters : Prop :=
  (∀ (i : Instr) (s t : State), exec i s = .next t →
    ((∀ x, i ≠ .ldDtVx x) → t.dt = s.dt) ∧
    ((∀ x, i ≠ .ldStVx x) → t.st = s.st ∧ t.toneEn = s.toneEn)) ∧
  (∀ s t : State, step s = .next t → s.ports.tickDue = false →
    ((∀ x, fetchDecode s ≠ .ok (.ldDtVx x)) → t.dt = s.dt) ∧
    ((∀ x, fetchDecode s ≠ .ok (.ldStVx x)) → t.st = s.st)) ∧
  ∀ s : State,
    (s.dt = 0 → (tick s).dt = 0) ∧ (s.st = 0 → (tick s).st = 0) ∧
    (1 ≤ s.dt.toNat → (tick s).dt.toNat + 1 = s.dt.toNat) ∧
    (1 ≤ s.st.toNat → (tick s).st.toNat + 1 = s.st.toNat)

/-- The writers of every other special register (10_state.md section 12, 20_memory.md section 1): I only
ANNN, FX1E, FX29; SP only CALL and RET; Stack only CALL; FB only CLS and DRW; memory only FX33 and FX55;
held, newly, the parameters and the input feed no instruction at all. -/
def Obligations.SpecialStateHasOnlyItsWriters : Prop :=
  ∀ (i : Instr) (s t : State), exec i s = .next t →
    (t.i ≠ s.i → (∃ nnn, i = .ldI nnn) ∨ (∃ x, i = .addIVx x) ∨ (∃ x, i = .ldFVx x)) ∧
    (t.sp ≠ s.sp → (∃ nnn, i = .call nnn) ∨ (∃ x, i = .ret x)) ∧
    (t.stack ≠ s.stack → ∃ nnn, i = .call nnn) ∧
    (t.fb ≠ s.fb → (∃ x, i = .cls x) ∨ (∃ x y n, i = .drw x y n)) ∧
    ((∃ a, t.readByte a ≠ s.readByte a) → (∃ x, i = .ldBVx x) ∨ (∃ x, i = .ldMemVx x)) ∧
    t.held = s.held ∧ t.newly = s.newly ∧ t.params = s.params ∧ t.env = s.env

/-- The writers of VF (10_state.md rule R11): an instruction that is not in the rule's list and does not
name VF as its destination leaves VF alone. The list's closedness is decision D11 of the spec (log
entry 14). -/
def Obligations.FlagHasOnlyItsWriters : Prop :=
  ∀ (i : Instr) (s t : State), exec i s = .next t → t.reg 0xF ≠ s.reg 0xF →
    match i with
    | .addImm _ _ | .addReg _ _ | .subReg _ _ | .shr _ _ | .subnReg _ _ | .shl _ _ => True
    | .drw _ _ _ | .addIVx _ => True
    | .ldImm x _ | .ldReg x _ | .orReg x _ | .andReg x _ | .xorReg x _ => x = 0xF
    | .rnd x _ | .ldVxDt x | .ldVxK x | .ldVxMem x => x = 0xF
    | _ => False

/-- No instruction reads ST or the tone gate (10_state.md rule R19): two states that differ only there
go to states that differ only there. -/
def Obligations.SoundIsNeverRead : Prop :=
  ∀ (i : Instr) (s t : State) (n : Byte) (b : Bool), exec i s = .next t →
    ∃ u, exec i { s with st := n, toneEn := b } = .next u ∧
      { u with st := t.st, toneEn := t.toneEn } = t

/-- No instruction changes a byte of the font region (20_memory.md rule R47, decision D8, log entry
12). -/
def Obligations.FontRegionIsReadOnly : Prop :=
  ∀ (i : Instr) (s t : State) (a : Nat), exec i s = .next t → a < 0x050 → t.readByte a = s.readByte a

/-- CALL and then RET: SP returns to its value before the call and PC ends at the call site plus 2,
whatever ran in between, if it left SP and Stack as the call left them (10_state.md rule R17, decisions
D6, D23, log entry 10). -/
def Obligations.RetUndoesCall : Prop :=
  ∀ (nnn : Addr) (x : Nibble) (s t u : State),
    s.Running → exec (.call nnn) s = .next t → t.Running → u.sp = t.sp → u.stack = t.stack →
    s.pc.toNat + 2 ≤ 0xFFF →
    exec (.ret x) u = .next { u with sp := s.sp, pc := s.pc + 2 }

/-- FX55 and then FX65 with the same X and I: every register stored comes back, whatever ran in between,
if it left memory and I alone (43_index_memory.md). -/
def Obligations.LoadUndoesStore : Prop :=
  ∀ (x : Nibble) (s t u w : State),
    s.Running → exec (.ldMemVx x) s = .next t → t.Running →
    u.Running → u.mem = t.mem → u.params = t.params → u.i = t.i → exec (.ldVxMem x) u = .next w →
    w.Running →
    ∀ r : Nibble, r.toNat ≤ x.toNat → w.reg r = s.reg r

/-- Fetch coherence (20_memory.md rule R53, which the spec marks as derived; log entry 23): after FX33 or
FX55 the next fetch, at any address that has a second byte, takes the stored bytes where the store
reached and the old ones elsewhere, the words that straddle either end of the stored range included,
and decodes that word. -/
def Obligations.StoresAreSeenByTheNextFetch : Prop :=
  ∀ (x : Nibble) (s t : State) (a : Addr), s.Running → t.Running → a.toNat + 1 ≤ 0xFFF →
    (exec (.ldMemVx x) s = .next t →
      FetchesWord t a
        (s.byteAfterStore s.i.toNat (x.toNat + 1) (fun k => s.reg (BitVec.ofNat 4 k)))) ∧
    (exec (.ldBVx x) s = .next t →
      ∀ h d o : Nat, h < 10 → d < 10 → o < 10 → (s.reg x).toNat = 100 * h + 10 * d + o →
        FetchesWord t a
          (s.byteAfterStore s.i.toNat 3 (fun k =>
            if k = 0 then BitVec.ofNat 8 h else if k = 1 then BitVec.ofNat 8 d
            else BitVec.ofNat 8 o)))

/-! ### The invariant -/

/-- Every step keeps the invariant: memory stays canonical, the font region holds FONT, the tone gate is
on exactly when ST is not 0, and info is 0 while the core runs. The canonical form is the model's own
(log entry 27); the tone clause rests on decision D16 (log entry 18). -/
def Obligations.StepKeepsInvariant : Prop :=
  ∀ s t : State, Inv s → step s = .next t → Inv t

/-- The invariant holds after reset. It rests on the reset values that are the spec's own choice D18 (log
entry 5). -/
def Obligations.ResetHasInvariant : Prop := Inv State.reset

/-- The invariant holds after every reset, whatever the parameters and the image, accepted or rejected.
It rests on the reset values and on the state after a rejected load, the spec's own choices D18 and D26
(log entries 5, 21). -/
def Obligations.EveryResetHasInvariant : Prop :=
  ∀ (p : Params) (image : List Byte), Inv (resetWith p image)

/-! ### Reset and load (70_reset_and_hazards.md) -/

/-- The registers after reset (10_state.md rule R34: PC = 0x200 and SP = 0 from the document's example,
every other value the spec's own choice D18; log entry 5). -/
def Obligations.ResetRegisterValues : Prop :=
  ∀ (p : Params) (image : List Byte),
    let s := resetWith p image
    s.pc = 0x200 ∧ s.sp = 0 ∧ (∀ x, s.reg x = 0) ∧ s.i = 0 ∧ s.dt = 0 ∧ s.st = 0 ∧
    s.toneEn = false ∧ (∀ k : Fin 16, s.stack[k] = 0) ∧ (∀ r : Fin 32, s.fb[r] = 0) ∧
    s.held = 0 ∧ s.newly = 0 ∧ s.params = p

/-- The load: an image of at most 3584 bytes is copied to 0x200 and the core runs; a longer one stops the
core with LOAD_SIZE and its length, nothing copied; the font and the fill are in place in both cases
(70_reset_and_hazards.md rule R211; decisions D19, D26, log entries 3, 21). -/
def Obligations.LoadCopiesOrRejectsTheImage : Prop :=
  ∀ (p : Params) (image : List Byte),
    (image.length ≤ 3584 →
      (resetWith p image).status = { cause := .run, info := 0 } ∧
      (∀ k, (h : k < image.length) → (resetWith p image).readByte (0x200 + k) = image[k]) ∧
      ∀ a, 0x50 ≤ a → (a < 0x200 ∨ 0x200 + image.length ≤ a) →
        (resetWith p image).readByte a = p.memFill) ∧
    (3584 < image.length →
      (resetWith p image).status =
        { cause := .loadSize, info := BitVec.ofNat 32 image.length } ∧
      ∀ a, 0x50 ≤ a → (resetWith p image).readByte a = p.memFill) ∧
    ∀ a, (h : a < 80) → (resetWith p image).readByte a = p.font[a]

/-! ### Encoding (30_encoding.md) -/

/-- Decoding the encoding of any well-formed instruction gives it back, every operand and every ignored
field at every value (30_encoding.md sections 2 to 4). -/
def Obligations.DecodeOfEncode : Prop :=
  ∀ i : Instr, i.wellFormed = true →
    decode (encode i) = .ok i ∧ ∀ rest, decodeBytes (encodeBytes i ++ rest) = .ok (i, rest)

/-- The other direction: every word that decodes decodes to a well-formed instruction, whose encoding is
that word; so a legal word and its instruction determine each other. -/
def Obligations.EncodeOfDecode : Prop :=
  ∀ (w : Word) (i : Instr), decode w = .ok i → i.wellFormed = true ∧ encode i = w

/-- The two-level dispatch of rule R63 and the mask-and-match table of rule R64, tried in order, select
the same instruction for every word, and none for the same words (30_encoding.md sections 3, 4). -/
def Obligations.DispatchAgreesWithOpcodeTable : Prop :=
  ∀ w : Word,
    (∀ i, decode w = .ok i → firstRow w = some i.rowNumber) ∧
    ((∃ e, decode w = .error e) → firstRow w = none)

/-- The illegal words are exactly those of classes 8, E and F whose sub-selector the table does not list
(30_encoding.md section 5). -/
def Obligations.IllegalWordsAreExactly : Prop :=
  ∀ w : Word, (∃ e, decode w = .error e) ↔
    (w.toNat / 4096 = 0x8 ∧ w.toNat % 16 ∈ [0x8, 0x9, 0xA, 0xB, 0xC, 0xD, 0xF]) ∨
    (w.toNat / 4096 = 0xE ∧ w.toNat % 256 ∉ [0x9E, 0xA1]) ∨
    (w.toNat / 4096 = 0xF ∧
      w.toNat % 256 ∉ [0x07, 0x0A, 0x15, 0x18, 0x1E, 0x29, 0x33, 0x55, 0x65])

/-- Words written out from the spec's examples decode to the instructions it names (95_test_vectors.md
sections 1 and 2). -/
def Obligations.SampleWordsDecode : Prop :=
  decode 0x00E0 = .ok (.cls 0x0) ∧ decode 0x03EE = .ok (.ret 0x3) ∧
  decode 0x0123 = .ok (.sys 0x123) ∧ decode 0x1ABC = .ok (.jp 0xABC) ∧
  decode 0x332A = .ok (.seImm 0x3 0x2A) ∧ decode 0x5127 = .ok (.seReg 0x1 0x2 0x7) ∧
  decode 0x71FA = .ok (.addImm 0x1 0xFA) ∧ decode 0x8125 = .ok (.subReg 0x1 0x2) ∧
  decode 0xD125 = .ok (.drw 0x1 0x2 0x5) ∧ decode 0xE0A1 = .ok (.sknp 0x0) ∧
  decode 0xF255 = .ok (.ldMemVx 0x2) ∧ decode 0x8128 = .error (.aluSelector 0x8) ∧
  decode 0xE19F = .error (.keySelector 0x9F) ∧ decode 0xF1FF = .error (.miscSelector 0xFF)
end

