-- ==== Sys2Proof/Laws/Decode.lean ====
section
/-! SUPPORT. The fields of a word as numbers, the three packings as numbers, and that fields and
packings undo each other: what every proof about decoder and encoder cites. -/

namespace Sys2Proof

/-! ### Fields and packings as numbers -/

theorem toNat_fieldClass (w : Word) : (fieldClass w).toNat = w.toNat / 4096 := by
  have := w.isLt
  simp only [fieldClass, BitVec.extractLsb'_toNat, Nat.shiftRight_eq_div_pow]
  omega

theorem toNat_fieldX (w : Word) : (fieldX w).toNat = w.toNat / 256 % 16 := by
  simp only [fieldX, BitVec.extractLsb'_toNat, Nat.shiftRight_eq_div_pow]

theorem toNat_fieldY (w : Word) : (fieldY w).toNat = w.toNat / 16 % 16 := by
  simp only [fieldY, BitVec.extractLsb'_toNat, Nat.shiftRight_eq_div_pow]

theorem toNat_fieldN (w : Word) : (fieldN w).toNat = w.toNat % 16 := by
  simp [fieldN, BitVec.extractLsb'_toNat]

theorem toNat_fieldNN (w : Word) : (fieldNN w).toNat = w.toNat % 256 := by
  simp [fieldNN, BitVec.extractLsb'_toNat]

theorem toNat_fieldNNN (w : Word) : (fieldNNN w).toNat = w.toNat % 4096 := by
  simp [fieldNNN, BitVec.extractLsb'_toNat]

theorem toNat_append_add {m n : Nat} (a : BitVec m) (b : BitVec n) :
    (a ++ b).toNat = a.toNat * 2 ^ n + b.toNat := by
  rw [BitVec.toNat_append, ← Nat.shiftLeft_add_eq_or_of_lt b.isLt, Nat.shiftLeft_eq]

theorem toNat_packNibbles (c x y n : Nibble) :
    (packNibbles c x y n).toNat = c.toNat * 4096 + x.toNat * 256 + y.toNat * 16 + n.toNat := by
  simp only [packNibbles, toNat_append_add]
  omega

theorem toNat_packXNN (c x : Nibble) (nn : Byte) :
    (packXNN c x nn).toNat = c.toNat * 4096 + x.toNat * 256 + nn.toNat := by
  simp only [packXNN, toNat_append_add]
  omega

theorem toNat_packNNN (c : Nibble) (nnn : Addr) :
    (packNNN c nnn).toNat = c.toNat * 4096 + nnn.toNat := by
  simp only [packNNN, toNat_append_add]
  omega

/-! ### The fields of a packing -/

section
variable (c x y n : Nibble) (nn : Byte) (nnn : Addr)

@[simp] theorem fieldClass_packNibbles : fieldClass (packNibbles c x y n) = c := by
  apply BitVec.eq_of_toNat_eq
  rw [toNat_fieldClass, toNat_packNibbles]; omega

@[simp] theorem fieldX_packNibbles : fieldX (packNibbles c x y n) = x := by
  apply BitVec.eq_of_toNat_eq
  rw [toNat_fieldX, toNat_packNibbles]; omega

@[simp] theorem fieldY_packNibbles : fieldY (packNibbles c x y n) = y := by
  apply BitVec.eq_of_toNat_eq
  rw [toNat_fieldY, toNat_packNibbles]; omega

@[simp] theorem fieldN_packNibbles : fieldN (packNibbles c x y n) = n := by
  apply BitVec.eq_of_toNat_eq
  rw [toNat_fieldN, toNat_packNibbles]; omega

@[simp] theorem fieldClass_packXNN : fieldClass (packXNN c x nn) = c := by
  apply BitVec.eq_of_toNat_eq
  rw [toNat_fieldClass, toNat_packXNN]; omega

@[simp] theorem fieldX_packXNN : fieldX (packXNN c x nn) = x := by
  apply BitVec.eq_of_toNat_eq
  rw [toNat_fieldX, toNat_packXNN]; omega

@[simp] theorem fieldNN_packXNN : fieldNN (packXNN c x nn) = nn := by
  apply BitVec.eq_of_toNat_eq
  rw [toNat_fieldNN, toNat_packXNN]; omega

@[simp] theorem fieldClass_packNNN : fieldClass (packNNN c nnn) = c := by
  apply BitVec.eq_of_toNat_eq
  rw [toNat_fieldClass, toNat_packNNN]; omega

@[simp] theorem fieldNNN_packNNN : fieldNNN (packNNN c nnn) = nnn := by
  apply BitVec.eq_of_toNat_eq
  rw [toNat_fieldNNN, toNat_packNNN]; omega

/-- NN of an address word is the low byte of its NNN. -/
@[simp] theorem fieldNN_packNNN : fieldNN (packNNN c nnn) = nnn.setWidth 8 := by
  apply BitVec.eq_of_toNat_eq
  rw [toNat_fieldNN, toNat_packNNN, BitVec.toNat_setWidth]; omega

end

/-! ### A word from its fields -/

theorem packNibbles_fields (w : Word) :
    packNibbles (fieldClass w) (fieldX w) (fieldY w) (fieldN w) = w := by
  apply BitVec.eq_of_toNat_eq
  rw [toNat_packNibbles, toNat_fieldClass, toNat_fieldX, toNat_fieldY, toNat_fieldN]
  omega

theorem packXNN_fields (w : Word) : packXNN (fieldClass w) (fieldX w) (fieldNN w) = w := by
  apply BitVec.eq_of_toNat_eq
  rw [toNat_packXNN, toNat_fieldClass, toNat_fieldX, toNat_fieldNN]
  omega

theorem packNNN_fields (w : Word) : packNNN (fieldClass w) (fieldNNN w) = w := by
  apply BitVec.eq_of_toNat_eq
  rw [toNat_packNNN, toNat_fieldClass, toNat_fieldNNN]
  omega

/-- NN is the low byte of NNN. -/
theorem setWidth_fieldNNN (w : Word) : (fieldNNN w).setWidth 8 = fieldNN w := by
  apply BitVec.eq_of_toNat_eq
  rw [BitVec.toNat_setWidth, toNat_fieldNNN, toNat_fieldNN]
  omega

/-! ### Bytes -/

/-- The two bytes of a word, put together, are the word. -/
@[simp] theorem wordOfBytes_bytes (w : Word) : wordOfBytes (highByte w) (lowByte w) = w := by
  apply BitVec.eq_of_toNat_eq
  rw [wordOfBytes, toNat_append_add]
  have := w.isLt
  simp only [highByte, lowByte, BitVec.extractLsb'_toNat, Nat.shiftRight_eq_div_pow]
  omega

/-- A word's number: byte0 * 256 + byte1 (R60). -/
theorem toNat_wordOfBytes (a b : Byte) : (wordOfBytes a b).toNat = a.toNat * 256 + b.toNat := by
  rw [wordOfBytes, toNat_append_add]
  omega

/-- Decoding the bytes of an instruction is decoding its word. -/
theorem decodeBytes_encodeBytes (i : Instr) (rest : List Byte) :
    decodeBytes (encodeBytes i ++ rest) =
      match decode (encode i) with
      | .ok j => .ok (j, rest)
      | .error e => .error e := by
  cases h : decode (encode i) <;>
    simp only [encodeBytes, List.cons_append, List.nil_append, decodeBytes, wordOfBytes_bytes, h]

end Sys2Proof
end

