-- ==== Sys2Proof/Laws/State.lean ====
section
/-! SUPPORT. One lemma per field of State and update of State, each true by rfl. -/

namespace Sys2Proof.Machine

/-! ### State.setReg -/

@[simp] theorem State.setReg_i (s : State) (x : Nibble) (b : Byte) : (s.setReg x b).i = s.i := rfl
@[simp] theorem State.setReg_pc (s : State) (x : Nibble) (b : Byte) : (s.setReg x b).pc = s.pc := rfl
@[simp] theorem State.setReg_sp (s : State) (x : Nibble) (b : Byte) : (s.setReg x b).sp = s.sp := rfl
@[simp] theorem State.setReg_stack (s : State) (x : Nibble) (b : Byte) : (s.setReg x b).stack = s.stack := rfl
@[simp] theorem State.setReg_dt (s : State) (x : Nibble) (b : Byte) : (s.setReg x b).dt = s.dt := rfl
@[simp] theorem State.setReg_st (s : State) (x : Nibble) (b : Byte) : (s.setReg x b).st = s.st := rfl
@[simp] theorem State.setReg_toneEn (s : State) (x : Nibble) (b : Byte) : (s.setReg x b).toneEn = s.toneEn := rfl
@[simp] theorem State.setReg_fb (s : State) (x : Nibble) (b : Byte) : (s.setReg x b).fb = s.fb := rfl
@[simp] theorem State.setReg_held (s : State) (x : Nibble) (b : Byte) : (s.setReg x b).held = s.held := rfl
@[simp] theorem State.setReg_newly (s : State) (x : Nibble) (b : Byte) : (s.setReg x b).newly = s.newly := rfl
@[simp] theorem State.setReg_status (s : State) (x : Nibble) (b : Byte) : (s.setReg x b).status = s.status := rfl
@[simp] theorem State.setReg_mem (s : State) (x : Nibble) (b : Byte) : (s.setReg x b).mem = s.mem := rfl
@[simp] theorem State.setReg_params (s : State) (x : Nibble) (b : Byte) : (s.setReg x b).params = s.params := rfl
@[simp] theorem State.setReg_env (s : State) (x : Nibble) (b : Byte) : (s.setReg x b).env = s.env := rfl

/-! ### State.setResultFlag -/

@[simp] theorem State.setResultFlag_i (s : State) (x : Nibble) (b f : Byte) : (s.setResultFlag x b f).i = s.i := rfl
@[simp] theorem State.setResultFlag_pc (s : State) (x : Nibble) (b f : Byte) : (s.setResultFlag x b f).pc = s.pc := rfl
@[simp] theorem State.setResultFlag_sp (s : State) (x : Nibble) (b f : Byte) : (s.setResultFlag x b f).sp = s.sp := rfl
@[simp] theorem State.setResultFlag_stack (s : State) (x : Nibble) (b f : Byte) : (s.setResultFlag x b f).stack = s.stack := rfl
@[simp] theorem State.setResultFlag_dt (s : State) (x : Nibble) (b f : Byte) : (s.setResultFlag x b f).dt = s.dt := rfl
@[simp] theorem State.setResultFlag_st (s : State) (x : Nibble) (b f : Byte) : (s.setResultFlag x b f).st = s.st := rfl
@[simp] theorem State.setResultFlag_toneEn (s : State) (x : Nibble) (b f : Byte) : (s.setResultFlag x b f).toneEn = s.toneEn := rfl
@[simp] theorem State.setResultFlag_fb (s : State) (x : Nibble) (b f : Byte) : (s.setResultFlag x b f).fb = s.fb := rfl
@[simp] theorem State.setResultFlag_held (s : State) (x : Nibble) (b f : Byte) : (s.setResultFlag x b f).held = s.held := rfl
@[simp] theorem State.setResultFlag_newly (s : State) (x : Nibble) (b f : Byte) : (s.setResultFlag x b f).newly = s.newly := rfl
@[simp] theorem State.setResultFlag_status (s : State) (x : Nibble) (b f : Byte) : (s.setResultFlag x b f).status = s.status := rfl
@[simp] theorem State.setResultFlag_mem (s : State) (x : Nibble) (b f : Byte) : (s.setResultFlag x b f).mem = s.mem := rfl
@[simp] theorem State.setResultFlag_params (s : State) (x : Nibble) (b f : Byte) : (s.setResultFlag x b f).params = s.params := rfl
@[simp] theorem State.setResultFlag_env (s : State) (x : Nibble) (b f : Byte) : (s.setResultFlag x b f).env = s.env := rfl

/-! ### State.storeBytes -/

@[simp] theorem State.storeBytes_v (s : State) (a : Nat) (bs : List Byte) : (s.storeBytes a bs).v = s.v := rfl
@[simp] theorem State.storeBytes_i (s : State) (a : Nat) (bs : List Byte) : (s.storeBytes a bs).i = s.i := rfl
@[simp] theorem State.storeBytes_pc (s : State) (a : Nat) (bs : List Byte) : (s.storeBytes a bs).pc = s.pc := rfl
@[simp] theorem State.storeBytes_sp (s : State) (a : Nat) (bs : List Byte) : (s.storeBytes a bs).sp = s.sp := rfl
@[simp] theorem State.storeBytes_stack (s : State) (a : Nat) (bs : List Byte) : (s.storeBytes a bs).stack = s.stack := rfl
@[simp] theorem State.storeBytes_dt (s : State) (a : Nat) (bs : List Byte) : (s.storeBytes a bs).dt = s.dt := rfl
@[simp] theorem State.storeBytes_st (s : State) (a : Nat) (bs : List Byte) : (s.storeBytes a bs).st = s.st := rfl
@[simp] theorem State.storeBytes_toneEn (s : State) (a : Nat) (bs : List Byte) : (s.storeBytes a bs).toneEn = s.toneEn := rfl
@[simp] theorem State.storeBytes_fb (s : State) (a : Nat) (bs : List Byte) : (s.storeBytes a bs).fb = s.fb := rfl
@[simp] theorem State.storeBytes_held (s : State) (a : Nat) (bs : List Byte) : (s.storeBytes a bs).held = s.held := rfl
@[simp] theorem State.storeBytes_newly (s : State) (a : Nat) (bs : List Byte) : (s.storeBytes a bs).newly = s.newly := rfl
@[simp] theorem State.storeBytes_status (s : State) (a : Nat) (bs : List Byte) : (s.storeBytes a bs).status = s.status := rfl
@[simp] theorem State.storeBytes_mem (s : State) (a : Nat) (bs : List Byte) :
    (s.storeBytes a bs).mem = s.mem.writeBytes s.fill a bs := rfl
@[simp] theorem State.storeBytes_params (s : State) (a : Nat) (bs : List Byte) : (s.storeBytes a bs).params = s.params := rfl
@[simp] theorem State.storeBytes_env (s : State) (a : Nat) (bs : List Byte) : (s.storeBytes a bs).env = s.env := rfl

/-! ### takeFault -/

@[simp] theorem takeFault_v (c : Cause) (n : Nat) (s : State) : (takeFault c n s).v = s.v := rfl
@[simp] theorem takeFault_i (c : Cause) (n : Nat) (s : State) : (takeFault c n s).i = s.i := rfl
@[simp] theorem takeFault_pc (c : Cause) (n : Nat) (s : State) : (takeFault c n s).pc = s.pc := rfl
@[simp] theorem takeFault_sp (c : Cause) (n : Nat) (s : State) : (takeFault c n s).sp = s.sp := rfl
@[simp] theorem takeFault_stack (c : Cause) (n : Nat) (s : State) : (takeFault c n s).stack = s.stack := rfl
@[simp] theorem takeFault_dt (c : Cause) (n : Nat) (s : State) : (takeFault c n s).dt = s.dt := rfl
@[simp] theorem takeFault_st (c : Cause) (n : Nat) (s : State) : (takeFault c n s).st = s.st := rfl
@[simp] theorem takeFault_toneEn (c : Cause) (n : Nat) (s : State) : (takeFault c n s).toneEn = s.toneEn := rfl
@[simp] theorem takeFault_fb (c : Cause) (n : Nat) (s : State) : (takeFault c n s).fb = s.fb := rfl
@[simp] theorem takeFault_held (c : Cause) (n : Nat) (s : State) : (takeFault c n s).held = s.held := rfl
@[simp] theorem takeFault_newly (c : Cause) (n : Nat) (s : State) : (takeFault c n s).newly = s.newly := rfl
@[simp] theorem takeFault_status (c : Cause) (n : Nat) (s : State) :
    (takeFault c n s).status = { cause := c, info := BitVec.ofNat 32 n } := rfl
@[simp] theorem takeFault_mem (c : Cause) (n : Nat) (s : State) : (takeFault c n s).mem = s.mem := rfl
@[simp] theorem takeFault_params (c : Cause) (n : Nat) (s : State) : (takeFault c n s).params = s.params := rfl
@[simp] theorem takeFault_env (c : Cause) (n : Nat) (s : State) : (takeFault c n s).env = s.env := rfl

/-! ### consumeSample -/

@[simp] theorem consumeSample_v (s : State) : (consumeSample s).v = s.v := rfl
@[simp] theorem consumeSample_i (s : State) : (consumeSample s).i = s.i := rfl
@[simp] theorem consumeSample_pc (s : State) : (consumeSample s).pc = s.pc := rfl
@[simp] theorem consumeSample_sp (s : State) : (consumeSample s).sp = s.sp := rfl
@[simp] theorem consumeSample_stack (s : State) : (consumeSample s).stack = s.stack := rfl
@[simp] theorem consumeSample_dt (s : State) : (consumeSample s).dt = s.dt := rfl
@[simp] theorem consumeSample_st (s : State) : (consumeSample s).st = s.st := rfl
@[simp] theorem consumeSample_toneEn (s : State) : (consumeSample s).toneEn = s.toneEn := rfl
@[simp] theorem consumeSample_fb (s : State) : (consumeSample s).fb = s.fb := rfl
@[simp] theorem consumeSample_held (s : State) : (consumeSample s).held = s.held := rfl
@[simp] theorem consumeSample_newly (s : State) : (consumeSample s).newly = s.newly := rfl
@[simp] theorem consumeSample_status (s : State) : (consumeSample s).status = s.status := rfl
@[simp] theorem consumeSample_mem (s : State) : (consumeSample s).mem = s.mem := rfl
@[simp] theorem consumeSample_params (s : State) : (consumeSample s).params = s.params := rfl
@[simp] theorem consumeSample_env (s : State) :
    (consumeSample s).env = { pending := s.env.pending.tail, drawn := s.env.drawn + 1 } := rfl

/-! ### latchKeys -/

@[simp] theorem latchKeys_v (s : State) : (latchKeys s).v = s.v := rfl
@[simp] theorem latchKeys_i (s : State) : (latchKeys s).i = s.i := rfl
@[simp] theorem latchKeys_pc (s : State) : (latchKeys s).pc = s.pc := rfl
@[simp] theorem latchKeys_sp (s : State) : (latchKeys s).sp = s.sp := rfl
@[simp] theorem latchKeys_stack (s : State) : (latchKeys s).stack = s.stack := rfl
@[simp] theorem latchKeys_dt (s : State) : (latchKeys s).dt = s.dt := rfl
@[simp] theorem latchKeys_st (s : State) : (latchKeys s).st = s.st := rfl
@[simp] theorem latchKeys_toneEn (s : State) : (latchKeys s).toneEn = s.toneEn := rfl
@[simp] theorem latchKeys_fb (s : State) : (latchKeys s).fb = s.fb := rfl
@[simp] theorem latchKeys_held (s : State) :
    (latchKeys s).held = (s.held ||| s.ports.keyPressed) &&& ~~~s.ports.keyReleased := rfl
@[simp] theorem latchKeys_newly (s : State) :
    (latchKeys s).newly = s.ports.keyPressed := rfl
@[simp] theorem latchKeys_status (s : State) : (latchKeys s).status = s.status := rfl
@[simp] theorem latchKeys_mem (s : State) : (latchKeys s).mem = s.mem := rfl
@[simp] theorem latchKeys_params (s : State) : (latchKeys s).params = s.params := rfl
@[simp] theorem latchKeys_env (s : State) : (latchKeys s).env = s.env := rfl

/-! ### tick -/

@[simp] theorem tick_v (s : State) : (tick s).v = s.v := rfl
@[simp] theorem tick_i (s : State) : (tick s).i = s.i := rfl
@[simp] theorem tick_pc (s : State) : (tick s).pc = s.pc := rfl
@[simp] theorem tick_sp (s : State) : (tick s).sp = s.sp := rfl
@[simp] theorem tick_stack (s : State) : (tick s).stack = s.stack := rfl
@[simp] theorem tick_dt (s : State) :
    (tick s).dt = countDown s.dt := rfl
@[simp] theorem tick_st (s : State) :
    (tick s).st = countDown s.st := rfl
@[simp] theorem tick_toneEn (s : State) :
    (tick s).toneEn = if s.st ≠ 0 ∧ countDown s.st = 0 then false else s.toneEn := rfl
@[simp] theorem tick_fb (s : State) : (tick s).fb = s.fb := rfl
@[simp] theorem tick_held (s : State) : (tick s).held = s.held := rfl
@[simp] theorem tick_newly (s : State) : (tick s).newly = s.newly := rfl
@[simp] theorem tick_status (s : State) : (tick s).status = s.status := rfl
@[simp] theorem tick_mem (s : State) : (tick s).mem = s.mem := rfl
@[simp] theorem tick_params (s : State) : (tick s).params = s.params := rfl
@[simp] theorem tick_env (s : State) : (tick s).env = s.env := rfl

/-! ### tickIf -/

@[simp] theorem tickIf_v (d : Bool) (s : State) : (tickIf d s).v = s.v := rfl
@[simp] theorem tickIf_i (d : Bool) (s : State) : (tickIf d s).i = s.i := rfl
@[simp] theorem tickIf_pc (d : Bool) (s : State) : (tickIf d s).pc = s.pc := rfl
@[simp] theorem tickIf_sp (d : Bool) (s : State) : (tickIf d s).sp = s.sp := rfl
@[simp] theorem tickIf_stack (d : Bool) (s : State) : (tickIf d s).stack = s.stack := rfl
@[simp] theorem tickIf_dt (d : Bool) (s : State) :
    (tickIf d s).dt = if d then (tick s).dt else s.dt := rfl
@[simp] theorem tickIf_st (d : Bool) (s : State) :
    (tickIf d s).st = if d then (tick s).st else s.st := rfl
@[simp] theorem tickIf_toneEn (d : Bool) (s : State) :
    (tickIf d s).toneEn = if d then (tick s).toneEn else s.toneEn := rfl
@[simp] theorem tickIf_fb (d : Bool) (s : State) : (tickIf d s).fb = s.fb := rfl
@[simp] theorem tickIf_held (d : Bool) (s : State) : (tickIf d s).held = s.held := rfl
@[simp] theorem tickIf_newly (d : Bool) (s : State) : (tickIf d s).newly = s.newly := rfl
@[simp] theorem tickIf_status (d : Bool) (s : State) : (tickIf d s).status = s.status := rfl
@[simp] theorem tickIf_mem (d : Bool) (s : State) : (tickIf d s).mem = s.mem := rfl
@[simp] theorem tickIf_params (d : Bool) (s : State) : (tickIf d s).params = s.params := rfl
@[simp] theorem tickIf_env (d : Bool) (s : State) : (tickIf d s).env = s.env := rfl

/-! ### State.setSound -/

@[simp] theorem State.setSound_v (s : State) (b : Byte) : (s.setSound b).v = s.v := rfl
@[simp] theorem State.setSound_i (s : State) (b : Byte) : (s.setSound b).i = s.i := rfl
@[simp] theorem State.setSound_pc (s : State) (b : Byte) : (s.setSound b).pc = s.pc := rfl
@[simp] theorem State.setSound_sp (s : State) (b : Byte) : (s.setSound b).sp = s.sp := rfl
@[simp] theorem State.setSound_stack (s : State) (b : Byte) : (s.setSound b).stack = s.stack := rfl
@[simp] theorem State.setSound_dt (s : State) (b : Byte) : (s.setSound b).dt = s.dt := rfl
@[simp] theorem State.setSound_st (s : State) (b : Byte) :
    (s.setSound b).st = b := rfl
@[simp] theorem State.setSound_toneEn (s : State) (b : Byte) :
    (s.setSound b).toneEn = (b != 0) := rfl
@[simp] theorem State.setSound_fb (s : State) (b : Byte) : (s.setSound b).fb = s.fb := rfl
@[simp] theorem State.setSound_held (s : State) (b : Byte) : (s.setSound b).held = s.held := rfl
@[simp] theorem State.setSound_newly (s : State) (b : Byte) : (s.setSound b).newly = s.newly := rfl
@[simp] theorem State.setSound_status (s : State) (b : Byte) : (s.setSound b).status = s.status := rfl
@[simp] theorem State.setSound_mem (s : State) (b : Byte) : (s.setSound b).mem = s.mem := rfl
@[simp] theorem State.setSound_params (s : State) (b : Byte) : (s.setSound b).params = s.params := rfl
@[simp] theorem State.setSound_env (s : State) (b : Byte) : (s.setSound b).env = s.env := rfl

/-! ### endCycle -/

@[simp] theorem endCycle_v (p : Ports) (s : State) : (endCycle p s).v = s.v := rfl
@[simp] theorem endCycle_i (p : Ports) (s : State) : (endCycle p s).i = s.i := rfl
@[simp] theorem endCycle_pc (p : Ports) (s : State) : (endCycle p s).pc = s.pc := rfl
@[simp] theorem endCycle_sp (p : Ports) (s : State) : (endCycle p s).sp = s.sp := rfl
@[simp] theorem endCycle_stack (p : Ports) (s : State) : (endCycle p s).stack = s.stack := rfl
@[simp] theorem endCycle_dt (p : Ports) (s : State) :
    (endCycle p s).dt = if (s.status.cause == .run && p.tickDue) then (tick s).dt else s.dt := rfl
@[simp] theorem endCycle_st (p : Ports) (s : State) :
    (endCycle p s).st = if (s.status.cause == .run && p.tickDue) then (tick s).st else s.st := rfl
@[simp] theorem endCycle_toneEn (p : Ports) (s : State) :
    (endCycle p s).toneEn = if (s.status.cause == .run && p.tickDue) then (tick s).toneEn else s.toneEn := rfl
@[simp] theorem endCycle_fb (p : Ports) (s : State) : (endCycle p s).fb = s.fb := rfl
@[simp] theorem endCycle_held (p : Ports) (s : State) : (endCycle p s).held = s.held := rfl
@[simp] theorem endCycle_newly (p : Ports) (s : State) : (endCycle p s).newly = s.newly := rfl
@[simp] theorem endCycle_status (p : Ports) (s : State) : (endCycle p s).status = s.status := rfl
@[simp] theorem endCycle_mem (p : Ports) (s : State) : (endCycle p s).mem = s.mem := rfl
@[simp] theorem endCycle_params (p : Ports) (s : State) : (endCycle p s).params = s.params := rfl
@[simp] theorem endCycle_env (p : Ports) (s : State) :
    (endCycle p s).env = { pending := s.env.pending.tail, drawn := s.env.drawn + 1 } := rfl

/-! ### Reads that look at some fields only -/

/-- A byte read looks at memory and the parameters only. -/
theorem State.readByte_congr {s t : State} (hm : t.mem = s.mem) (hp : t.params = s.params) (a : Nat) :
    t.readByte a = s.readByte a := by
  simp only [State.readByte, State.fill, hm, hp]

/-- A sequence of byte reads looks at memory and the parameters only. -/
theorem State.readBytes_congr {s t : State} (hm : t.mem = s.mem) (hp : t.params = s.params)
    (a n : Nat) : t.readBytes a n = s.readBytes a n := by
  induction n generalizing a with
  | zero => rfl
  | succ n ih => simp only [State.readBytes, ih, State.readByte_congr hm hp]

/-- A register read looks at V only. -/
theorem State.reg_congr {s t : State} (hv : t.v = s.v) (x : Nibble) : t.reg x = s.reg x := by
  simp only [State.reg, hv]

/-- Fetch and decode look at memory, the parameters and PC only. -/
theorem fetchDecode_congr {s t : State} (hm : t.mem = s.mem) (hp : t.params = s.params)
    (hpc : t.pc = s.pc) : fetchDecode t = fetchDecode s := by
  simp only [fetchDecode, State.fetchWord, hpc, State.readByte_congr hm hp]

/-- The key latch does not change what is fetched. -/
@[simp] theorem fetchDecode_latchKeys (s : State) : fetchDecode (latchKeys s) = fetchDecode s :=
  fetchDecode_congr rfl rfl rfl

@[simp] theorem State.ports_latchKeys (s : State) : (latchKeys s).ports = s.ports := rfl

end Sys2Proof.Machine
end

