-- ==== Sys2Proof/Laws/Memory.lean ====
section
/-! SUPPORT. Memory: read after write, the canonical form kept by every write, and equal memories from
equal reads. -/

namespace Sys2Proof.Machine

variable {d : Nat → Byte}

/-! ### Read after write -/

theorem Memory.read_erase_same (m : Memory) (a : Nat) : (m.erase a).read d a = d a := by
  induction m with
  | nil => rfl
  | cons c m ih =>
    obtain ⟨b, u⟩ := c
    by_cases h : b = a
    · simpa [Memory.erase, h] using ih
    · have h' : ¬a = b := fun e => h e.symm
      simpa [Memory.erase, h, Memory.read, h'] using ih

theorem Memory.read_erase_ne (m : Memory) {a b : Nat} (hb : b ≠ a) :
    (m.erase a).read d b = m.read d b := by
  induction m with
  | nil => rfl
  | cons c m ih =>
    obtain ⟨e, u⟩ := c
    by_cases h : e = a
    · have h' : ¬b = e := fun x => hb (x.trans h)
      simpa [Memory.erase, h, Memory.read, hb] using ih
    · by_cases h2 : b = e
      · simp [Memory.erase, h, Memory.read, h2]
      · simpa [Memory.erase, h, Memory.read, h2] using ih

theorem Memory.read_insert_same (m : Memory) (a : Nat) (u : Byte) (h : ∀ c ∈ m, c.1 ≠ a) :
    (m.insert a u).read d a = u := by
  induction m with
  | nil => simp [Memory.insert, Memory.read]
  | cons c m ih =>
    obtain ⟨b, w⟩ := c
    have hb : ¬a = b := fun e => h (b, w) (by simp) e.symm
    by_cases hlt : a < b
    · simp [Memory.insert, hlt, Memory.read]
    · simpa [Memory.insert, hlt, Memory.read, hb] using ih fun c hc => h c (by simp [hc])

theorem Memory.read_insert_ne (m : Memory) {a b : Nat} (u : Byte) (hb : b ≠ a) :
    (m.insert a u).read d b = m.read d b := by
  induction m with
  | nil => simp [Memory.insert, Memory.read, hb]
  | cons c m ih =>
    obtain ⟨e, w⟩ := c
    by_cases hlt : a < e
    · simp [Memory.insert, hlt, Memory.read, hb]
    · simp [Memory.insert, hlt, Memory.read, ih]

theorem Memory.erase_ne (m : Memory) (a : Nat) : ∀ c ∈ m.erase a, c.1 ≠ a := by
  intro c hc
  simpa [Memory.erase] using (List.mem_filter.mp hc).2

/-- The byte written is the byte read. -/
@[simp] theorem Memory.read_write_same (m : Memory) (a : Nat) (u : Byte) :
    (m.write d a u).read d a = u := by
  unfold Memory.write
  split
  · rename_i h; rw [Memory.read_erase_same, h]
  · exact Memory.read_insert_same _ _ _ (Memory.erase_ne m a)

/-- A write leaves every other address alone. -/
theorem Memory.read_write_ne (m : Memory) {a b : Nat} (u : Byte) (hb : b ≠ a) :
    (m.write d a u).read d b = m.read d b := by
  unfold Memory.write
  split
  · exact Memory.read_erase_ne m hb
  · rw [Memory.read_insert_ne _ _ hb, Memory.read_erase_ne m hb]

/-- Everything a sequence of stores does: the byte at a + k is the k-th one, every other address is left
alone. -/
theorem Memory.read_writeBytes (m : Memory) (a : Nat) (us : List Byte) (b : Nat) :
    (m.writeBytes d a us).read d b =
      if h : a ≤ b ∧ b - a < us.length then us[b - a]'h.2 else m.read d b := by
  induction us generalizing m a with
  | nil => simp [Memory.writeBytes]
  | cons u us ih =>
    rw [Memory.writeBytes, ih]
    by_cases hba : b = a
    · subst hba
      simp
    · rw [Memory.read_write_ne m u hba]
      by_cases h : a + 1 ≤ b ∧ b - (a + 1) < us.length
      · have h' : a ≤ b ∧ b - a < (u :: us).length := by simp; omega
        have e : b - a = (b - (a + 1)) + 1 := by omega
        rw [dif_pos h, dif_pos h']
        simp only [e, List.getElem_cons_succ]
      · have h' : ¬(a ≤ b ∧ b - a < (u :: us).length) := by simp; omega
        rw [dif_neg h, dif_neg h']

/-! ### The canonical form -/

theorem Memory.wfFrom_mono {m : Memory} {lo lo' : Nat} (h : lo' ≤ lo)
    (hm : m.wfFrom d lo = true) : m.wfFrom d lo' = true := by
  cases m with
  | nil => rfl
  | cons c m =>
    obtain ⟨b, u⟩ := c
    simp only [Memory.wfFrom, Bool.and_eq_true, decide_eq_true_eq] at hm ⊢
    exact ⟨⟨⟨by omega, hm.1.1.2⟩, hm.1.2⟩, hm.2⟩

theorem Memory.wfFrom_erase {m : Memory} {lo : Nat} (a : Nat) (hm : m.wfFrom d lo = true) :
    (m.erase a).wfFrom d lo = true := by
  induction m generalizing lo with
  | nil => rfl
  | cons c m ih =>
    obtain ⟨b, u⟩ := c
    simp only [Memory.wfFrom, Bool.and_eq_true, decide_eq_true_eq] at hm
    by_cases h : b = a
    · have e : Memory.erase ((b, u) :: m) a = Memory.erase m a := by simp [Memory.erase, h]
      rw [e]
      exact Memory.wfFrom_mono (by omega) (ih hm.2)
    · have e : Memory.erase ((b, u) :: m) a = (b, u) :: Memory.erase m a := by
        simp [Memory.erase, h]
      simp only [e, Memory.wfFrom, Bool.and_eq_true, decide_eq_true_eq]
      exact ⟨hm.1, ih hm.2⟩

theorem Memory.wfFrom_insert {m : Memory} {lo a : Nat} {u : Byte} (hlo : lo ≤ a) (ha : a ≤ maxAddr)
    (hu : u ≠ d a) (hne : ∀ c ∈ m, c.1 ≠ a) (hm : m.wfFrom d lo = true) :
    (m.insert a u).wfFrom d lo = true := by
  induction m generalizing lo with
  | nil => simp [Memory.insert, Memory.wfFrom, hlo, ha, hu]
  | cons c m ih =>
    obtain ⟨b, w⟩ := c
    simp only [Memory.wfFrom, Bool.and_eq_true, decide_eq_true_eq] at hm
    have hb : b ≠ a := hne (b, w) (by simp)
    by_cases hlt : a < b
    · simp only [Memory.insert, hlt, ↓reduceIte, Memory.wfFrom, Bool.and_eq_true, decide_eq_true_eq,
        bne_iff_ne]
      exact ⟨⟨⟨hlo, ha⟩, hu⟩, ⟨⟨by omega, hm.1.1.2⟩, by simpa using hm.1.2⟩, hm.2⟩
    · simp only [Memory.insert, hlt, ↓reduceIte, Memory.wfFrom, Bool.and_eq_true,
        decide_eq_true_eq]
      exact ⟨hm.1, ih (by omega) (fun c hc => hne c (by simp [hc])) hm.2⟩

/-- A write inside the 4096 bytes keeps the canonical form. -/
theorem Memory.wf_write {m : Memory} {a : Nat} (u : Byte) (ha : a ≤ maxAddr) (hm : m.wf d = true) :
    (m.write d a u).wf d = true := by
  unfold Memory.write
  split
  · exact Memory.wfFrom_erase a hm
  · rename_i hu
    exact Memory.wfFrom_insert (Nat.zero_le a) ha hu (Memory.erase_ne m a) (Memory.wfFrom_erase a hm)

/-- A sequence of stores inside the 4096 bytes keeps the canonical form. -/
theorem Memory.wf_writeBytes {m : Memory} {a : Nat} {us : List Byte}
    (ha : a + us.length ≤ maxAddr + 1) (hm : m.wf d = true) : (m.writeBytes d a us).wf d = true := by
  induction us generalizing m a with
  | nil => exact hm
  | cons u us ih =>
    simp only [List.length_cons] at ha
    exact ih (by omega) (Memory.wf_write u (by omega) hm)

/-- Below its lowest address a canonical memory reads as the reset content. -/
theorem Memory.read_below {m : Memory} {lo a : Nat} (h : a < lo) (hm : m.wfFrom d lo = true) :
    m.read d a = d a := by
  induction m generalizing lo with
  | nil => rfl
  | cons c m ih =>
    obtain ⟨b, u⟩ := c
    simp only [Memory.wfFrom, Bool.and_eq_true, decide_eq_true_eq] at hm
    have : ¬a = b := by omega
    simp only [Memory.read, this, ↓reduceIte]
    exact ih (by omega) hm.2

/-- Two canonical memories that read alike at every address are the same list. -/
theorem Memory.eq_of_read_eq {m m' : Memory} {lo : Nat} (hm : m.wfFrom d lo = true)
    (hm' : m'.wfFrom d lo = true) (h : ∀ a, m.read d a = m'.read d a) : m = m' := by
  induction m generalizing m' lo with
  | nil =>
    cases m' with
    | nil => rfl
    | cons c m' =>
      obtain ⟨b, u⟩ := c
      simp only [Memory.wfFrom, Bool.and_eq_true, decide_eq_true_eq, bne_iff_ne] at hm'
      exact absurd (by simpa [Memory.read] using (h b).symm) hm'.1.2
  | cons c m ih =>
    obtain ⟨b, u⟩ := c
    simp only [Memory.wfFrom, Bool.and_eq_true, decide_eq_true_eq, bne_iff_ne] at hm
    cases m' with
    | nil => exact absurd (by simpa [Memory.read] using h b) hm.1.2
    | cons c' m' =>
      obtain ⟨b', u'⟩ := c'
      simp only [Memory.wfFrom, Bool.and_eq_true, decide_eq_true_eq, bne_iff_ne] at hm'
      have hbb : b = b' := by
        rcases Nat.lt_trichotomy b b' with hlt | heq | hgt
        · exact absurd (by
            simpa [Memory.read, Nat.ne_of_lt hlt, Memory.read_below (Nat.lt_succ_of_lt hlt) hm'.2]
              using h b) hm.1.2
        · exact heq
        · exact absurd (by
            simpa [Memory.read, Nat.ne_of_lt hgt, Memory.read_below (Nat.lt_succ_of_lt hgt) hm.2]
              using (h b').symm) hm'.1.2
      subst hbb
      have huu : u = u' := by simpa [Memory.read] using h b
      subst huu
      have : m = m' := ih hm.2 hm'.2 fun a => by
        by_cases hab : a = b
        · subst hab
          rw [Memory.read_below (Nat.lt_succ_self a) hm.2, Memory.read_below (Nat.lt_succ_self a) hm'.2]
        · simpa [Memory.read, hab] using h a
      rw [this]

/-! ### The same at the level of State -/

/-- Everything `storeBytes` does to memory. -/
theorem State.readByte_storeBytes (s : State) (a : Nat) (bs : List Byte) (b : Nat) :
    (s.storeBytes a bs).readByte b =
      if h : a ≤ b ∧ b - a < bs.length then bs[b - a]'h.2 else s.readByte b :=
  Memory.read_writeBytes s.mem a bs b

@[simp] theorem State.length_readBytes (s : State) (a n : Nat) : (s.readBytes a n).length = n := by
  induction n generalizing a with
  | zero => rfl
  | succ n ih => simp [State.readBytes, ih]

theorem State.getElem_readBytes (s : State) (a n k : Nat) (h : k < (s.readBytes a n).length) :
    (s.readBytes a n)[k] = s.readByte (a + k) := by
  induction n generalizing a k with
  | zero => simp [State.readBytes] at h
  | succ n ih =>
    cases k with
    | zero => simp [State.readBytes]
    | succ k =>
      simp only [State.readBytes, List.getElem_cons_succ]
      rw [ih]
      congr 1
      omega

/-- Reset memory has the canonical form. -/
theorem State.cleared_wf (p : Params) : (State.cleared p).mem.wf (State.cleared p).fill = true := rfl

end Sys2Proof.Machine
end

