-- ==== Sys2Proof/Laws/Ops.lean ====
section
/-! SUPPORT. One lemma for each shared operation that says everything it can do; callers cite these and
do not unfold the operation. -/

namespace Sys2Proof.Machine

/-! ### Registers -/

@[simp] theorem State.reg_setReg_same (s : State) (x : Nibble) (b : Byte) :
    (s.setReg x b).reg x = b := by
  simp [State.reg, State.setReg]

theorem State.reg_setReg_ne (s : State) {x r : Nibble} (b : Byte) (h : r ≠ x) :
    (s.setReg x b).reg r = s.reg r := by
  have h' : x.toNat ≠ r.toNat := fun e => h (BitVec.eq_of_toNat_eq e.symm)
  simp [State.reg, State.setReg, h']

/-- The flag is what VF ends with, the destination being VF included. -/
@[simp] theorem State.reg_setResultFlag_vf (s : State) (x : Nibble) (b f : Byte) :
    (s.setResultFlag x b f).reg 0xF = f :=
  State.reg_setReg_same _ _ _

theorem State.reg_setResultFlag_dest (s : State) {x : Nibble} (b f : Byte) (h : x ≠ 0xF) :
    (s.setResultFlag x b f).reg x = b := by
  rw [State.setResultFlag, State.reg_setReg_ne _ _ h, State.reg_setReg_same]

theorem State.reg_setResultFlag_ne (s : State) {x r : Nibble} (b f : Byte) (h : r ≠ x)
    (hf : r ≠ 0xF) : (s.setResultFlag x b f).reg r = s.reg r := by
  rw [State.setResultFlag, State.reg_setReg_ne _ _ hf, State.reg_setReg_ne _ _ h]

/-- The only field setReg changes is V. -/
theorem State.setReg_eq (s : State) (x : Nibble) (b : Byte) :
    s.setReg x b = { s with v := (s.setReg x b).v } := rfl

theorem State.setResultFlag_eq (s : State) (x : Nibble) (b f : Byte) :
    s.setResultFlag x b f = { s with v := (s.setResultFlag x b f).v } := rfl

@[simp] theorem State.length_regsUpTo (s : State) (x : Nibble) :
    (s.regsUpTo x).length = x.toNat + 1 := by
  have := x.isLt
  simp only [State.regsUpTo, List.length_take, Vector.length_toList]
  omega

theorem State.getElem_regsUpTo (s : State) (x : Nibble) (k : Nat) (h : k < (s.regsUpTo x).length) :
    (s.regsUpTo x)[k] = s.reg (BitVec.ofNat 4 k) := by
  have hx := x.isLt
  have hk : k < 16 := by rw [State.length_regsUpTo] at h; omega
  have e : (BitVec.ofNat 4 k).toNat = k := by simp only [BitVec.toNat_ofNat]; omega
  simp [State.regsUpTo, State.reg, e, List.getElem_take]

/-- Everything `loadBytes` does: register k + j receives byte j, every other register stays. -/
theorem getElem_loadBytes (v : Vector Byte 16) (k : Nat) (bs : List Byte) (r : Nat) (hr : r < 16) :
    (loadBytes v k bs)[r] =
      if h : k ≤ r ∧ r - k < bs.length then bs[r - k]'h.2 else v[r] := by
  induction bs generalizing v k with
  | nil => simp [loadBytes]
  | cons b bs ih =>
    rw [loadBytes, ih]
    by_cases hrk : r = k
    · subst hrk
      simp
    · have hkr : k ≠ r := fun e => hrk e.symm
      by_cases h : k + 1 ≤ r ∧ r - (k + 1) < bs.length
      · have h' : k ≤ r ∧ r - k < (b :: bs).length := by simp; omega
        have e : r - k = (r - (k + 1)) + 1 := by omega
        rw [dif_pos h, dif_pos h']
        simp only [e, List.getElem_cons_succ]
      · have h' : ¬(k ≤ r ∧ r - k < (b :: bs).length) := by simp; omega
        rw [dif_neg h, dif_neg h']
        simp [hkr]

/-! ### Ending an instruction -/

/-- The checked advance either takes PC_RANGE, with none of the writes, or writes and sets PC. -/
theorem finishAt_cases (n : Nat) (s s' : State) :
    (0xFFF < n ∧ finishAt n s s' = takeFault .pcRange n s) ∨
    (n ≤ 0xFFF ∧ finishAt n s s' = { s' with pc := BitVec.ofNat 12 n }) := by
  unfold finishAt maxAddr
  split
  · exact .inl ⟨‹_›, rfl⟩
  · exact .inr ⟨by omega, rfl⟩

theorem finishAt_ok {n : Nat} (h : n ≤ 0xFFF) (s s' : State) :
    finishAt n s s' = { s' with pc := BitVec.ofNat 12 n } := by
  rw [finishAt, maxAddr, if_neg (by omega)]

theorem finishAt_range {n : Nat} (h : 0xFFF < n) (s s' : State) :
    finishAt n s s' = takeFault .pcRange n s := by
  rw [finishAt, maxAddr, if_pos h]

/-- Inside memory PC + k does not wrap. -/
theorem pc_add_ofNat (pc : Addr) (k : Nat) : BitVec.ofNat 12 (pc.toNat + k) = pc + BitVec.ofNat 12 k := by
  apply BitVec.eq_of_toNat_eq
  simp [BitVec.toNat_add]

/-- The default advance where PC + 2 is an address. -/
theorem finishNext_ok {s : State} (h : s.pc.toNat + 2 ≤ 0xFFF) (s' : State) :
    finishNext s s' = { s' with pc := s.pc + 2 } := by
  rw [finishNext, State.next, finishAt_ok h, pc_add_ofNat]
  rfl

/-- The default advance at 0xFFE and 0xFFF. -/
theorem finishNext_range {s : State} (h : 0xFFF < s.pc.toNat + 2) (s' : State) :
    finishNext s s' = takeFault .pcRange (s.pc.toNat + 2) s :=
  finishAt_range h s s'

theorem finishNext_cases (s s' : State) :
    (0xFFF < s.pc.toNat + 2 ∧ finishNext s s' = takeFault .pcRange (s.pc.toNat + 2) s) ∨
    (s.pc.toNat + 2 ≤ 0xFFF ∧ finishNext s s' = { s' with pc := s.pc + 2 }) := by
  by_cases h : s.pc.toNat + 2 ≤ 0xFFF
  · exact .inr ⟨h, finishNext_ok h s'⟩
  · exact .inl ⟨by omega, finishNext_range (by omega) s'⟩

/-- A skip instruction's end: one of four cases. -/
theorem finishSkipIf_cases (b : Bool) (s : State) :
    (b = true ∧ s.pc.toNat + 4 ≤ 0xFFF ∧ finishSkipIf b s = { s with pc := s.pc + 4 }) ∨
    (b = true ∧ 0xFFF < s.pc.toNat + 4 ∧
      finishSkipIf b s = takeFault .pcRange (s.pc.toNat + 4) s) ∨
    (b = false ∧ s.pc.toNat + 2 ≤ 0xFFF ∧ finishSkipIf b s = { s with pc := s.pc + 2 }) ∨
    (b = false ∧ 0xFFF < s.pc.toNat + 2 ∧
      finishSkipIf b s = takeFault .pcRange (s.pc.toNat + 2) s) := by
  cases b
  · rcases finishNext_cases s s with h | h
    · exact .inr (.inr (.inr ⟨rfl, h⟩))
    · exact .inr (.inr (.inl ⟨rfl, h⟩))
  · by_cases h : s.pc.toNat + 4 ≤ 0xFFF
    · refine .inl ⟨rfl, h, ?_⟩
      simp only [finishSkipIf, if_true, State.skip, finishAt_ok h, pc_add_ofNat]
      rfl
    · have h' : 0xFFF < s.pc.toNat + 4 := by omega
      exact .inr (.inl ⟨rfl, h', finishAt_range h' s s⟩)

/-! ### Operand checks -/

theorem checkBounds_cases (hi : Nat) (s k : State) :
    (0xFFF < hi ∧ checkBounds hi s k = takeFault .memBounds hi s) ∨
    (hi ≤ 0xFFF ∧ checkBounds hi s k = k) := by
  unfold checkBounds maxAddr
  split
  · exact .inl ⟨‹_›, rfl⟩
  · exact .inr ⟨by omega, rfl⟩

theorem checkFont_cases (lo : Nat) (s k : State) :
    (lo < 0x050 ∧ checkFont lo s k = takeFault .fontWrite lo s) ∨
    (0x050 ≤ lo ∧ checkFont lo s k = k) := by
  unfold checkFont fontBase fontLen
  split
  · exact .inl ⟨by omega, rfl⟩
  · exact .inr ⟨by omega, rfl⟩

theorem checkKey_cases (x : Nibble) (s k : State) :
    (15 < (s.reg x).toNat ∧ checkKey x s k = takeFault .keyIndex (s.reg x).toNat s) ∨
    ((s.reg x).toNat ≤ 15 ∧ checkKey x s k = k) := by
  unfold checkKey
  split
  · exact .inl ⟨‹_›, rfl⟩
  · exact .inr ⟨by omega, rfl⟩

theorem checkDigit_cases (x : Nibble) (s k : State) :
    (15 < (s.reg x).toNat ∧ checkDigit x s k = takeFault .digitIndex (s.reg x).toNat s) ∨
    ((s.reg x).toNat ≤ 15 ∧ checkDigit x s k = k) := by
  unfold checkDigit
  split
  · exact .inl ⟨‹_›, rfl⟩
  · exact .inr ⟨by omega, rfl⟩

theorem checkSprite_cases (n : Nat) (s k : State) :
    (0 < n ∧ 0xFFF < s.i.toNat + n - 1 ∧
      checkSprite n s k = takeFault .memBounds (s.i.toNat + n - 1) s) ∨
    ((n = 0 ∨ s.i.toNat + n - 1 ≤ 0xFFF) ∧ checkSprite n s k = k) := by
  unfold checkSprite
  split
  · exact .inr ⟨.inl ‹_›, rfl⟩
  · have e : s.ea (n - 1) = s.i.toNat + n - 1 := by unfold State.ea; omega
    rw [e]
    rcases checkBounds_cases (s.i.toNat + n - 1) s k with ⟨h, h'⟩ | ⟨h, h'⟩
    · exact .inl ⟨by omega, h, h'⟩
    · exact .inr ⟨.inr h, h'⟩

/-! ### The call stack -/

theorem pushPc_full {s : State} (h : s.sp.val = 16) (k : State → State) :
    pushPc s k = takeFault .stackOverflow s.pc.toNat s := by
  rw [pushPc, dif_neg (by unfold stackDepth; omega)]

theorem pushPc_room {s : State} (j : Fin 16) (h : s.sp.val = j.val) (k : State → State) :
    pushPc s k = k { s with stack := s.stack.set j.val s.pc j.isLt, sp := j.succ } := by
  have hs : s.sp.val < stackDepth := by unfold stackDepth; omega
  rw [pushPc, dif_pos hs]
  simp only [h]
  congr

theorem popPc_empty {s : State} (h : s.sp.val = 0) (k : Addr → State → State) :
    popPc s k = takeFault .stackUnderflow s.pc.toNat s := by
  rw [popPc, dif_pos h]

theorem popPc_some {s : State} (j : Fin 16) (h : s.sp.val = j.val + 1) (k : Addr → State → State) :
    popPc s k = k s.stack[j] { s with sp := j.castSucc } := by
  rw [popPc, dif_neg (by omega)]
  simp only [h, Nat.add_sub_cancel]
  rfl

/-! ### The key masks -/

/-- `lowest` finds the least set bit. -/
theorem lowest_eq {m : Word} {k : Nat} (hk : k < 16) (h : m.getLsbD k = true)
    (hlt : ∀ j < k, m.getLsbD j = false) : lowest m = k := by
  have : (List.range 16).find? (fun i => m.getLsbD i) = some k := by
    rw [List.find?_range_eq_some]
    exact ⟨h, by simpa using hk, fun j hj => by simp [hlt j hj]⟩
  rw [lowest, this, Option.getD_some]

/-! ### Timers -/

theorem toNat_countDown (b : Byte) : (countDown b).toNat = b.toNat - 1 := by
  unfold countDown
  split
  · rename_i h; simp [h]
  · rename_i h
    have : b.toNat ≠ 0 := fun e => h (BitVec.eq_of_toNat_eq e)
    have := b.isLt
    rw [BitVec.toNat_sub]
    simp
    omega

theorem countDown_eq_zero (b : Byte) : countDown b = 0 ↔ b.toNat ≤ 1 := by
  have h := toNat_countDown b
  constructor
  · intro e; rw [e] at h; simp at h; omega
  · intro e; apply BitVec.eq_of_toNat_eq; simp; omega

theorem tickIf_false (s : State) : tickIf false s = s := rfl
theorem tickIf_true (s : State) : tickIf true s = tick s := rfl

end Sys2Proof.Machine
end

