-- ==== Sys2Proof/Laws/Display.lean ====
section
/-! SUPPORT. The sprite engine: the bits of a rotated sprite row, and everything `Canvas.draw` does to
the rows of the framebuffer and to the collision flag. -/

namespace Sys2Proof.Machine

/-- Column c of the row of sprite byte b at column x is on exactly when some bit 7 - j of b lies there,
columns wrapping mod 64 (R151, R152). -/
theorem spriteRow_getLsbD (b : Byte) (x : Nat) {c : Nat} (hc : c < 64) :
    (spriteRow b x).getLsbD (63 - c) = true ↔
      ∃ j, j < 8 ∧ (x + j) % 64 = c ∧ b.getLsbD (7 - j) = true := by
  simp only [spriteRow, ror64, BitVec.getLsbD_rotateRight, BitVec.getLsbD_shiftLeft,
    BitVec.getLsbD_setWidth, Bool.cond_eq_ite, decide_eq_true_eq]
  constructor
  · intro h
    split at h
    · simp only [Bool.and_eq_true, decide_eq_true_eq, Bool.not_eq_true', decide_eq_false_iff_not] at h
      have hb : x % 64 + (63 - c) - 56 < 8 := BitVec.lt_of_getLsbD h.2.2
      exact ⟨c - x % 64, by omega, by omega, by
        rw [show 7 - (c - x % 64) = x % 64 + (63 - c) - 56 by omega]; exact h.2.2⟩
    · simp only [Bool.and_eq_true, decide_eq_true_eq, Bool.not_eq_true', decide_eq_false_iff_not] at h
      have hb : 63 - c - (64 - x % 64) - 56 < 8 := BitVec.lt_of_getLsbD h.2.2.2
      exact ⟨64 + c - x % 64, by omega, by omega, by
        rw [show 7 - (64 + c - x % 64) = 63 - c - (64 - x % 64) - 56 by omega]; exact h.2.2.2⟩
  · rintro ⟨j, hj, hx, hb⟩
    split
    · rw [show x % 64 + (63 - c) - 56 = 7 - j by omega, hb]
      simp
      omega
    · rw [show 63 - c - (64 - x % 64) - 56 = 7 - j by omega, hb]
      simp
      omega

/-- Sprite row k of a sprite at row y lands on screen row r: clipped, or wrapped mod 32 (R151, R153). -/
def RowHits (wrap : Bool) (y k r : Nat) : Prop :=
  if wrap then (y + k) % 32 = r else y + k = r

theorem RowHits.mod {wrap : Bool} {y k r : Nat} (hr : r < 32) (h : RowHits wrap y k r) :
    (y + k) % 32 = r := by
  cases wrap <;> simp only [RowHits, if_true, Bool.false_eq_true, if_false] at h <;> omega

theorem RowHits.succ {wrap : Bool} {y k r : Nat} :
    RowHits wrap (y + 1) k r ↔ RowHits wrap y (k + 1) r := by
  unfold RowHits
  rw [show y + 1 + k = y + (k + 1) by omega]

/-- Two rows of one sprite of at most 32 rows never land on the same screen row. -/
theorem RowHits.unique {wrap : Bool} {y k l r : Nat} (hr : r < 32) (hk : k < 32) (hl : l < 32)
    (h : RowHits wrap y k r) (h' : RowHits wrap y l r) : k = l := by
  have := h.mod hr
  have := h'.mod hr
  omega

theorem Canvas.xorRow_same (c : Canvas) (n r : Nat) (row : FbRow) (hr : r < 32) (h : n % 32 = r) :
    (c.xorRow n row).fb[r] = c.fb[r] ^^^ row := by
  subst h
  simp [Canvas.xorRow]

theorem Canvas.xorRow_ne (c : Canvas) (n r : Nat) (row : FbRow) (hr : r < 32) (h : n % 32 ≠ r) :
    (c.xorRow n row).fb[r] = c.fb[r] := by
  simp [Canvas.xorRow, h]

theorem Canvas.xorRow_collision (c : Canvas) (n : Nat) (row : FbRow) (h : n % 32 < 32) :
    (c.xorRow n row).collision = true ↔ c.collision = true ∨ c.fb[n % 32] &&& row ≠ 0 := by
  simp [Canvas.xorRow]

/-- Everything the sprite engine does: a screen row hit by sprite row k is XORed with it, a row not hit
stays, and a collision is reported exactly when a hit row had a targeted pixel on. -/
theorem Canvas.draw_spec (wrap : Bool) (x y : Nat) (bs : List Byte) (c : Canvas)
    (hlen : bs.length ≤ 32) :
    (∀ k r, (hk : k < bs.length) → (hr : r < 32) → RowHits wrap y k r →
      (Canvas.draw wrap x y bs c).fb[r] = c.fb[r] ^^^ spriteRow bs[k] x) ∧
    (∀ r, (hr : r < 32) → (∀ k, k < bs.length → ¬RowHits wrap y k r) →
      (Canvas.draw wrap x y bs c).fb[r] = c.fb[r]) ∧
    ((Canvas.draw wrap x y bs c).collision = true ↔ c.collision = true ∨
      ∃ k r, ∃ (hk : k < bs.length) (hr : r < 32), RowHits wrap y k r ∧
        c.fb[r] &&& spriteRow bs[k] x ≠ 0) := by
  induction bs generalizing y c with
  | nil => simp [Canvas.draw]
  | cons b bs ih =>
    simp only [List.length_cons] at hlen
    unfold Canvas.draw
    split
    · rename_i hclip
      simp only [Bool.and_eq_true, Bool.not_eq_true', decide_eq_true_eq] at hclip
      have none : ∀ k r, r < 32 → ¬RowHits wrap y k r := by
        intro k r hr h
        simp only [RowHits, hclip.1, Bool.false_eq_true, if_false] at h
        omega
      refine ⟨fun k r _ hr h => absurd h (none k r hr), fun _ _ _ => rfl, ?_⟩
      constructor
      · exact .inl
      · rintro (h | ⟨k, r, _, hr, h, _⟩)
        · exact h
        · exact absurd h (none k r hr)
    · rename_i hclip
      have hy : RowHits wrap y 0 (y % 32) := by
        cases wrap
        · simp only [Bool.not_false, Bool.true_and, decide_eq_true_eq] at hclip
          simp only [RowHits, Bool.false_eq_true, if_false]
          omega
        · simp [RowHits]
      have hlt : y % 32 < 32 := Nat.mod_lt _ (by decide)
      obtain ⟨hhit, hmiss, hcol⟩ := ih (y + 1) (c.xorRow y (spriteRow b x)) (by omega)
      have later : ∀ k, k < bs.length → ¬RowHits wrap (y + 1) k (y % 32) := fun k hk h => by
        have := RowHits.unique hlt (by omega) (by omega) (RowHits.succ.mp h) hy
        omega
      refine ⟨?_, ?_, ?_⟩
      · intro k r hk hr h
        cases k with
        | zero =>
          have e : y % 32 = r := h.mod hr
          subst e
          rw [hmiss _ hr later, Canvas.xorRow_same c y _ _ hr rfl]
          rfl
        | succ k =>
          simp only [List.length_cons] at hk
          have hne : y % 32 ≠ r := fun e =>
            later k (by omega) (e ▸ RowHits.succ.mpr h)
          rw [hhit k r (by omega) hr (RowHits.succ.mpr h), Canvas.xorRow_ne c y r _ hr hne]
          rfl
      · intro r hr h
        have hne : y % 32 ≠ r := fun e => h 0 (by simp) (e ▸ hy)
        rw [hmiss r hr (fun k hk hh => h (k + 1) (by simpa using hk) (RowHits.succ.mp hh)),
          Canvas.xorRow_ne c y r _ hr hne]
      · rw [hcol, Canvas.xorRow_collision c y _ hlt, or_assoc]
        refine or_congr Iff.rfl ?_
        constructor
        · rintro (h | ⟨k, r, hk, hr, h, hc⟩)
          · exact ⟨0, y % 32, by simp, hlt, hy, h⟩
          · have hne : y % 32 ≠ r := fun e => later k hk (e ▸ h)
            rw [Canvas.xorRow_ne c y r _ hr hne] at hc
            exact ⟨k + 1, r, by simpa using hk, hr, RowHits.succ.mp h, hc⟩
        · rintro ⟨k, r, hk, hr, h, hc⟩
          cases k with
          | zero =>
            have e : y % 32 = r := h.mod hr
            subst e
            exact .inl hc
          | succ k =>
            simp only [List.length_cons] at hk
            have hk' : k < bs.length := by omega
            have hne : y % 32 ≠ r := fun e => later k hk' (e ▸ RowHits.succ.mpr h)
            refine .inr ⟨k, r, hk', hr, RowHits.succ.mpr h, ?_⟩
            rw [Canvas.xorRow_ne c y r _ hr hne]
            exact hc

/-! ### Pixels -/

/-- A row overlap is an overlap of pixels. -/
theorem and_ne_zero_iff_pixel (a b : FbRow) :
    a &&& b ≠ 0 ↔ ∃ c, c < 64 ∧ a.getLsbD (63 - c) = true ∧ b.getLsbD (63 - c) = true := by
  constructor
  · intro h
    by_contra hno
    apply h
    apply BitVec.eq_of_getLsbD_eq
    intro i hi
    have := fun ha hb => hno ⟨63 - i, by omega, ha, hb⟩
    rw [show 63 - (63 - i) = i by omega] at this
    simp only [BitVec.getLsbD_and]
    cases ha : a.getLsbD i <;> cases hb : b.getLsbD i <;> simp_all
  · rintro ⟨c, _, ha, hb⟩ h
    have := congrArg (fun r : FbRow => r.getLsbD (63 - c)) h
    simp [ha, hb] at this

/-- A sprite pixel, in terms of the rows the engine draws. -/
theorem spritePixel_iff (s : State) (x y : Byte) (n : Nat) (c : Fin 64) (r : Fin 32) :
    SpritePixel s x y n c r ↔
      ∃ k, k < n ∧ RowHits s.params.quirkVwrap y.toNat k r.val ∧
        (spriteRow (s.readByte (s.i.toNat + k)) x.toNat).getLsbD (63 - c.val) = true := by
  simp only [SpritePixel, spriteRow_getLsbD _ _ c.isLt, RowHits]
  constructor
  · rintro ⟨k, j, hk, hj, hx, hy, hb⟩
    exact ⟨k, hk, hy, j, hj, hx, hb⟩
  · rintro ⟨k, hk, hy, j, hj, hx, hb⟩
    exact ⟨k, j, hk, hj, hx, hy, hb⟩

/-- The canvas DRW gives, pixel by pixel: sprite pixels flip, every other one stays, and a collision is
a flipped pixel that was on (R152, R153). -/
theorem State.spriteCanvas_pixels (s : State) (x y : Byte) (n : Nat) (hn : n ≤ 32) :
    (∀ (c : Fin 64) (r : Fin 32), SpritePixel s x y n c r →
      (s.spriteCanvas x y n).fb[r].getLsbD (63 - c.val) = !s.pixel c r) ∧
    (∀ (c : Fin 64) (r : Fin 32), ¬SpritePixel s x y n c r →
      (s.spriteCanvas x y n).fb[r].getLsbD (63 - c.val) = s.pixel c r) ∧
    ((s.spriteCanvas x y n).collision = true ↔
      ∃ c r, SpritePixel s x y n c r ∧ s.pixel c r = true) := by
  obtain ⟨hhit, hmiss, hcol⟩ := Canvas.draw_spec s.params.quirkVwrap x.toNat y.toNat
    (s.readBytes (s.ea 0) n) { fb := s.fb, collision := false } (by simpa using hn)
  simp only [State.length_readBytes] at hhit hmiss hcol
  have hbyte : ∀ k, (hk : k < (s.readBytes (s.ea 0) n).length) →
      (s.readBytes (s.ea 0) n)[k] = s.readByte (s.i.toNat + k) := fun k hk => by
    rw [State.getElem_readBytes]; rfl
  have px : ∀ (c : Fin 64) (r : Fin 32), s.pixel c r = s.fb[r.val].getLsbD (63 - c.val) :=
    fun _ _ => rfl
  refine ⟨?_, ?_, ?_⟩
  · intro c r h
    obtain ⟨k, hk, hr, hb⟩ := (spritePixel_iff s x y n c r).mp h
    have := hhit k r.val hk r.isLt hr
    rw [hbyte k (by simpa using hk)] at this
    show (Canvas.draw _ _ _ _ _).fb[r.val].getLsbD _ = _
    rw [this, px, BitVec.getLsbD_xor, hb, Bool.xor_true]
  · intro c r h
    show (Canvas.draw _ _ _ _ _).fb[r.val].getLsbD _ = _
    by_cases hr : ∃ k, k < n ∧ RowHits s.params.quirkVwrap y.toNat k r.val
    · obtain ⟨k, hk, hr⟩ := hr
      have := hhit k r.val hk r.isLt hr
      rw [hbyte k (by simpa using hk)] at this
      have hb : (spriteRow (s.readByte (s.i.toNat + k)) x.toNat).getLsbD (63 - c.val) = false := by
        rw [Bool.eq_false_iff]
        exact fun hb => h ((spritePixel_iff s x y n c r).mpr ⟨k, hk, hr, hb⟩)
      rw [this, px, BitVec.getLsbD_xor, hb, Bool.xor_false]
    · rw [hmiss r.val r.isLt fun k hk hh => hr ⟨k, hk, hh⟩, px]
  · show (Canvas.draw _ _ _ _ _).collision = true ↔ _
    rw [hcol]
    simp only [Bool.false_eq_true, false_or]
    constructor
    · rintro ⟨k, r, hk, hr, h, hc⟩
      rw [hbyte k (by simpa using hk)] at hc
      obtain ⟨c, hc64, ha, hb⟩ := (and_ne_zero_iff_pixel _ _).mp hc
      exact ⟨⟨c, hc64⟩, ⟨r, hr⟩, (spritePixel_iff ..).mpr ⟨k, hk, h, hb⟩, ha⟩
    · rintro ⟨c, r, h, hp⟩
      obtain ⟨k, hk, hr, hb⟩ := (spritePixel_iff s x y n c r).mp h
      refine ⟨k, r.val, hk, r.isLt, hr, ?_⟩
      rw [hbyte k (by simpa using hk)]
      exact (and_ne_zero_iff_pixel _ _).mpr ⟨c.val, c.isLt, hp, hb⟩

end Sys2Proof.Machine
end

