-- ==== Sys2Proof/Laws/Exec.lean ====
section
/-! SUPPORT. What exec, a cycle and a step can do, said once: an instruction either takes one fault or
has its effect and sets PC; invariants and whole-machine rules are derived from this. -/

namespace Sys2Proof.Machine

/-- The writes of an instruction other than PC, in a state where it takes no fault. A lemma's aid:
`exec_inversion` ties it to exec. -/
def effect (i : Instr) (s : State) : State :=
  match i with
  | .cls _ => { s with fb := Vector.replicate 32 0 }
  | .ret _ => { s with sp := ⟨s.sp.val - 1, by have := s.sp.isLt; omega⟩ }
  | .sys _ => s
  | .jp _ => s
  | .call _ =>
    { s with
      stack := s.stack.setIfInBounds s.sp.val s.pc
      sp := ⟨min (s.sp.val + 1) 16, by omega⟩ }
  | .seImm _ _ => s
  | .sneImm _ _ => s
  | .seReg _ _ _ => s
  | .ldImm x nn => s.setReg x nn
  | .addImm x nn => s.setResultFlag x (s.reg x + nn) (carryFlag (s.reg x) nn)
  | .ldReg x y => s.setReg x (s.reg y)
  | .orReg x y => s.setReg x (s.reg x ||| s.reg y)
  | .andReg x y => s.setReg x (s.reg x &&& s.reg y)
  | .xorReg x y => s.setReg x (s.reg x ^^^ s.reg y)
  | .addReg x y => s.setResultFlag x (s.reg x + s.reg y) (carryFlag (s.reg x) (s.reg y))
  | .subReg x y => s.setResultFlag x (s.reg x - s.reg y) (noBorrowFlag (s.reg x) (s.reg y))
  | .shr x _ => s.setResultFlag x (s.reg x >>> 1) (shiftedOutLow (s.reg x))
  | .subnReg x y => s.setResultFlag x (s.reg y - s.reg x) (noBorrowFlag (s.reg y) (s.reg x))
  | .shl x _ => s.setResultFlag x (s.reg x <<< 1) (shiftedOutHigh (s.reg x))
  | .sneReg _ _ _ => s
  | .ldI nnn => { s with i := nnn }
  | .jpV0 _ => s
  | .rnd x nn => s.setReg x (s.ports.rnd &&& nn)
  | .drw x y n =>
    { s with fb := (s.spriteCanvas (s.reg x) (s.reg y) n.toNat).fb }.setReg 0xF
      (flagByte (s.spriteCanvas (s.reg x) (s.reg y) n.toNat).collision)
  | .skp _ => s
  | .sknp _ => s
  | .ldVxDt x => s.setReg x s.dt
  | .ldVxK x =>
    { s with v := if s.newly = 0 then s.v else (s.setReg x (BitVec.ofNat 8 (lowest s.newly))).v }
  | .ldDtVx x => { s with dt := s.reg x }
  | .ldStVx x => s.setSound (s.reg x)
  | .addIVx x =>
    { s with i := BitVec.ofNat 12 (s.i.toNat + (s.reg x).toNat) }.setReg 0xF
      (indexCarryFlag s.i (s.reg x))
  | .ldFVx x => { s with i := BitVec.ofNat 12 (glyphAddr (s.reg x).toNat) }
  | .ldBVx x => s.storeBytes (s.ea 0) (bcdDigits (s.reg x))
  | .ldMemVx x => s.storeBytes (s.ea 0) (s.regsUpTo x)
  | .ldVxMem x => { s with v := loadBytes s.v 0 (s.readBytes (s.ea 0) (x.toNat + 1)) }

/-! What no instruction writes. -/

section
variable (i : Instr) (s : State)

@[simp] theorem effect_held : (effect i s).held = s.held := by cases i <;> rfl
@[simp] theorem effect_newly : (effect i s).newly = s.newly := by cases i <;> rfl
@[simp] theorem effect_status : (effect i s).status = s.status := by cases i <;> rfl
@[simp] theorem effect_params : (effect i s).params = s.params := by cases i <;> rfl
@[simp] theorem effect_env : (effect i s).env = s.env := by cases i <;> rfl

end

/-- The faults an instruction can take, with what its information word is then. -/
def FaultOf (s : State) (c : Cause) (n : Nat) : Prop :=
  match c with
  | .stackOverflow => n = s.pc.toNat ∧ s.sp.val = 16
  | .stackUnderflow => n = s.pc.toNat ∧ s.sp.val = 0
  | .memBounds => 0x1000 ≤ n ∧ n ≤ 0x100E
  | .pcRange => 0x1000 ≤ n ∧ n ≤ 0x10FE
  | .fontWrite => n = s.i.toNat ∧ s.i.toNat < 0x050
  | .keyIndex => 15 < n ∧ n ≤ 255
  | .digitIndex => 15 < n ∧ n ≤ 255
  | .run => False
  | .loadSize => False
  | .decode => False
  | .fetchBounds => False

theorem FaultOf.ne_run {s : State} {c : Cause} {n : Nat} (h : FaultOf s c n) : c ≠ .run := by
  rintro rfl
  exact h

/-- The stores of an instruction, where it takes no fault, lie inside memory and above the font. -/
def StoresInRange (i : Instr) (s : State) : Prop :=
  match i with
  | .ldBVx _ => 0x050 ≤ s.i.toNat ∧ s.i.toNat + 2 ≤ 0xFFF
  | .ldMemVx x => 0x050 ≤ s.i.toNat ∧ s.i.toNat + x.toNat ≤ 0xFFF
  | _ => True

/-- How an instruction's meaning ends: one fault with none of the writes, or the effect and a new PC. -/
def Ends (i : Instr) (s u : State) : Prop :=
  (∃ c n, FaultOf s c n ∧ u = takeFault c n s) ∨
  (StoresInRange i s ∧ ∃ p, u = { effect i s with pc := p })

theorem Ends.fault {i : Instr} {s u : State} (c : Cause) (n : Nat) (h : FaultOf s c n)
    (e : u = takeFault c n s) : Ends i s u :=
  .inl ⟨c, n, h, e⟩

theorem ends_finishAt {i : Instr} {s : State} {n : Nat} (hr : StoresInRange i s) (hn : n ≤ 0x10FE) :
    Ends i s (finishAt n s (effect i s)) := by
  rcases finishAt_cases n s (effect i s) with ⟨h, e⟩ | ⟨_, e⟩
  · exact .fault .pcRange n ⟨h, hn⟩ e
  · exact .inr ⟨hr, _, e⟩

theorem ends_finishNext {i : Instr} {s : State} (hr : StoresInRange i s) :
    Ends i s (finishNext s (effect i s)) :=
  ends_finishAt hr (by unfold State.next; omega)

theorem ends_finishSkipIf {i : Instr} {s : State} (b : Bool) (he : effect i s = s)
    (hr : StoresInRange i s) : Ends i s (finishSkipIf b s) := by
  have := ends_finishAt (i := i) (s := s) (n := if b then s.skip else s.next) hr
    (by unfold State.next State.skip; split <;> omega)
  rwa [he] at this

/-- The next state of an outcome, if it is one. -/
def nextOf (r : Result) (s : State) : State :=
  match r with
  | .next u => u
  | .fault _ => s
  | .refused _ => s

/-- Everything exec can do. -/
theorem exec_ends (i : Instr) (s : State) : ∃ u, exec i s = .next u ∧ Ends i s u := by
  refine ⟨nextOf (exec i s) s, by cases i <;> rfl, ?_⟩
  cases i with
  | ret x =>
    show Ends (.ret x) s (popPc s fun a popped => finishAt (a.toNat + 2) s popped)
    by_cases h : s.sp.val = 0
    · exact .fault .stackUnderflow _ ⟨rfl, h⟩ (popPc_empty h _)
    · have hj : s.sp.val - 1 < 16 := by have := s.sp.isLt; omega
      rw [popPc_some ⟨s.sp.val - 1, hj⟩ (by simp; omega)]
      exact ends_finishAt (i := .ret x) trivial (by omega)
  | jp nnn => exact .inr ⟨trivial, nnn, rfl⟩
  | call nnn =>
    show Ends (.call nnn) s (pushPc s fun pushed => { pushed with pc := nnn })
    by_cases h : s.sp.val = 16
    · exact .fault .stackOverflow _ ⟨rfl, h⟩ (pushPc_full h _)
    · have hj : s.sp.val < 16 := by have := s.sp.isLt; omega
      have e : effect (.call nnn) s =
          { s with stack := s.stack.set s.sp.val s.pc hj, sp := (⟨s.sp.val, hj⟩ : Fin 16).succ } := by
        have hm : min (s.sp.val + 1) 16 = s.sp.val + 1 := by omega
        have hst : s.stack.setIfInBounds s.sp.val s.pc = s.stack.set s.sp.val s.pc hj := by
          ext k hk
          simp [Vector.getElem_set, Vector.getElem_setIfInBounds]
        simp only [effect, hm, hst]
        rfl
      rw [pushPc_room ⟨s.sp.val, hj⟩ rfl]
      exact .inr ⟨trivial, nnn, by rw [e]⟩
  | jpV0 nnn => exact ends_finishAt (i := .jpV0 nnn) trivial (by have := (s.reg 0x0).isLt; omega)
  | seImm x nn => exact ends_finishSkipIf _ rfl trivial
  | sneImm x nn => exact ends_finishSkipIf _ rfl trivial
  | seReg x y n => exact ends_finishSkipIf _ rfl trivial
  | sneReg x y n => exact ends_finishSkipIf _ rfl trivial
  | skp x =>
    show Ends _ s (checkKey x s _)
    rcases checkKey_cases x s (finishSkipIf (s.keyHeld (s.reg x).toNat) s) with ⟨h, e⟩ | ⟨_, e⟩
    · exact .fault .keyIndex _ ⟨h, by have := (s.reg x).isLt; omega⟩ e
    · rw [e]; exact ends_finishSkipIf _ rfl trivial
  | sknp x =>
    show Ends _ s (checkKey x s _)
    rcases checkKey_cases x s (finishSkipIf (!s.keyHeld (s.reg x).toNat) s) with ⟨h, e⟩ | ⟨_, e⟩
    · exact .fault .keyIndex _ ⟨h, by have := (s.reg x).isLt; omega⟩ e
    · rw [e]; exact ends_finishSkipIf _ rfl trivial
  | ldFVx x =>
    show Ends _ s (checkDigit x s (finishNext s (effect (.ldFVx x) s)))
    rcases checkDigit_cases x s (finishNext s (effect (.ldFVx x) s)) with ⟨h, e⟩ | ⟨_, e⟩
    · exact .fault .digitIndex _ ⟨h, by have := (s.reg x).isLt; omega⟩ e
    · rw [e]; exact ends_finishNext trivial
  | ldBVx x =>
    show Ends _ s (checkBounds (s.ea 2) s (checkFont (s.ea 0) s (finishNext s (effect (.ldBVx x) s))))
    rcases checkBounds_cases (s.ea 2) s
      (checkFont (s.ea 0) s (finishNext s (effect (.ldBVx x) s))) with ⟨h, e⟩ | ⟨hb, e⟩
    · exact .fault .memBounds _ ⟨h, by unfold State.ea; omega⟩ e
    · rw [e]
      rcases checkFont_cases (s.ea 0) s (finishNext s (effect (.ldBVx x) s)) with ⟨h, e⟩ | ⟨hf, e⟩
      · exact .fault .fontWrite _ ⟨rfl, h⟩ e
      · rw [e]; exact ends_finishNext ⟨hf, hb⟩
  | ldMemVx x =>
    show Ends _ s
      (checkBounds (s.ea x.toNat) s (checkFont (s.ea 0) s (finishNext s (effect (.ldMemVx x) s))))
    rcases checkBounds_cases (s.ea x.toNat) s
      (checkFont (s.ea 0) s (finishNext s (effect (.ldMemVx x) s))) with ⟨h, e⟩ | ⟨hb, e⟩
    · exact .fault .memBounds _ ⟨h, by unfold State.ea; have := x.isLt; omega⟩ e
    · rw [e]
      rcases checkFont_cases (s.ea 0) s (finishNext s (effect (.ldMemVx x) s)) with ⟨h, e⟩ | ⟨hf, e⟩
      · exact .fault .fontWrite _ ⟨rfl, h⟩ e
      · rw [e]; exact ends_finishNext ⟨hf, hb⟩
  | ldVxMem x =>
    show Ends _ s (checkBounds (s.ea x.toNat) s (finishNext s (effect (.ldVxMem x) s)))
    rcases checkBounds_cases (s.ea x.toNat) s (finishNext s (effect (.ldVxMem x) s)) with
      ⟨h, e⟩ | ⟨_, e⟩
    · exact .fault .memBounds _ ⟨h, by unfold State.ea; have := x.isLt; omega⟩ e
    · rw [e]; exact ends_finishNext trivial
  | drw x y n =>
    show Ends _ s (checkSprite n.toNat s (finishNext s (effect (.drw x y n) s)))
    rcases checkSprite_cases n.toNat s (finishNext s (effect (.drw x y n) s)) with
      ⟨_, h, e⟩ | ⟨_, e⟩
    · exact .fault .memBounds _ ⟨h, by have := n.isLt; omega⟩ e
    · rw [e]; exact ends_finishNext trivial
  | ldVxK x =>
    show Ends _ s (if s.newly = 0 then s else _)
    by_cases h : s.newly = 0
    · have e : effect (.ldVxK x) s = s := by simp only [effect, if_pos h]
      refine .inr ⟨trivial, s.pc, ?_⟩
      rw [if_pos h, e]
    · have e : effect (.ldVxK x) s = s.setReg x (BitVec.ofNat 8 (lowest s.newly)) := by
        simp only [effect, if_neg h]
        rfl
      rw [if_neg h, ← e]
      exact ends_finishNext trivial
  | _ => exact ends_finishNext (by exact trivial)

/-- As `exec_ends`, from a given next state. -/
theorem exec_inversion {i : Instr} {s t : State} (h : exec i s = .next t) : Ends i s t := by
  obtain ⟨u, hu, he⟩ := exec_ends i s
  rw [hu] at h
  exact Host.Outcome.next.inj h ▸ he

/-! ### The cycle and the step -/

/-- What phase (b) can do: a fetch fault, a decode fault, or the decoded instruction. -/
theorem executeOne_cases (s : State) :
    (s.pc = 0xFFF ∧ executeOne s = .next (takeFault .fetchBounds 0xFFF s)) ∨
    (s.pc.toNat + 1 ≤ 0xFFF ∧ ∃ e, decode s.fetchWord = .error e ∧
      executeOne s = .next (takeFault .decode (decodeInfo s.fetchWord s.pc) s)) ∨
    (s.pc.toNat + 1 ≤ 0xFFF ∧ ∃ i, decode s.fetchWord = .ok i ∧ fetchDecode s = .ok i ∧
      executeOne s = exec i s) := by
  have hlt := s.pc.isLt
  unfold executeOne fetchDecode maxAddr
  by_cases h : 0xFFF < s.pc.toNat + 1
  · have hpc : s.pc.toNat = 0xFFF := by omega
    refine .inl ⟨BitVec.eq_of_toNat_eq hpc, ?_⟩
    rw [if_pos h, hpc]
  · rw [if_neg h]
    cases hd : decode s.fetchWord with
    | error e => exact .inr (.inl ⟨by omega, e, rfl, rfl⟩)
    | ok i => exact .inr (.inr ⟨by omega, i, rfl, rfl, rfl⟩)

/-- Phase (b) always gives a next state. -/
theorem executeOne_next (s : State) : ∃ m, executeOne s = .next m := by
  rcases executeOne_cases s with ⟨_, e⟩ | ⟨_, _, _, e⟩ | ⟨_, i, _, _, e⟩
  · exact ⟨_, e⟩
  · exact ⟨_, e⟩
  · obtain ⟨u, hu, _⟩ := exec_ends i s
    exact ⟨u, e.trans hu⟩

theorem step_stopped {s : State} (h : ¬s.Running) : step s = .next s := by
  rw [step, if_neg (show ¬s.status.cause = .run from h)]

theorem step_running {s m : State} (h : s.Running) (hm : executeOne (latchKeys s) = .next m) :
    step s = .next (endCycle s.ports m) := by
  rw [step, if_pos (show s.status.cause = .run from h), cycle, afterInstruction, hm]

/-- Everything a step can do. -/
theorem step_cases {s t : State} (h : step s = .next t) :
    (¬s.Running ∧ t = s) ∨
    (s.Running ∧ ∃ m, executeOne (latchKeys s) = .next m ∧ t = endCycle s.ports m) := by
  by_cases hr : s.Running
  · obtain ⟨m, hm⟩ := executeOne_next (latchKeys s)
    rw [step_running hr hm] at h
    exact .inr ⟨hr, m, hm, (Host.Outcome.next.inj h).symm⟩
  · rw [step_stopped hr] at h
    exact .inl ⟨hr, (Host.Outcome.next.inj h).symm⟩

/-- The end of a cycle in which a fault was raised: no tick. -/
theorem endCycle_stopped {s : State} (p : Ports) (h : ¬s.Running) :
    endCycle p s = consumeSample s := by
  have : (s.status.cause == .run) = false := beq_eq_false_iff_ne.mpr h
  rw [endCycle, this, Bool.false_and, tickIf_false]

/-- The end of a cycle whose instruction completed. -/
theorem endCycle_running {s : State} (p : Ports) (h : s.Running) :
    endCycle p s = consumeSample (tickIf p.tickDue s) := by
  have : (s.status.cause == .run) = true := beq_iff_eq.mpr h
  rw [endCycle, this, Bool.true_and]

end Sys2Proof.Machine
end

