-- ==== Sys2Proof/Laws/PerInstr.lean ====
section
/-! SUPPORT. Per instruction: the row of rule R64's table that carries the instruction's number selects
the word the encoder gives it, whatever its operands and ignored fields. -/

namespace Sys2Proof.Laws.MatchesRow

/-- Some row of the table has the instruction's number and selects its word. -/
def Statement (i : Instr) : Prop :=
  ∃ r, r ∈ opcodeTable ∧ r.number = i.rowNumber ∧ r.selects (encode i) = true

/-! ### A packing under each of the three masks -/

theorem packNNN_class (c : Nibble) (nnn : Addr) : packNNN c nnn &&& 0xF000 = packNNN c 0 := by
  rw [packNNN, show (0xF000 : Word) = 0xF#4 ++ 0x000#12 by decide, BitVec.and_append]
  simp only [packNNN, BitVec.and_zero]
  congr 1
  revert c; decide

theorem packXNN_class (c x : Nibble) (nn : Byte) : packXNN c x nn &&& 0xF000 = packNNN c 0 := by
  have e : packXNN c x nn = packNNN c (x ++ nn) := by
    apply BitVec.eq_of_toNat_eq
    rw [toNat_packXNN, toNat_packNNN, toNat_append_add]
    omega
  rw [e, packNNN_class]

theorem packNibbles_class (c x y n : Nibble) : packNibbles c x y n &&& 0xF000 = packNNN c 0 := by
  have e : packNibbles c x y n = packXNN c x (y ++ n) := by
    apply BitVec.eq_of_toNat_eq
    rw [toNat_packNibbles, toNat_packXNN, toNat_append_add]
    omega
  rw [e, packXNN_class]

theorem packXNN_selector (c x : Nibble) (nn : Byte) : packXNN c x nn &&& 0xF0FF = packXNN c 0 nn := by
  rw [packXNN, show (0xF0FF : Word) = 0xF#4 ++ 0x0#4 ++ 0xFF#8 by decide, BitVec.and_append,
    BitVec.and_append]
  simp only [packXNN, BitVec.and_zero]
  congr 1
  · congr 1
    revert c; decide
  · exact BitVec.and_allOnes

theorem packNibbles_selector (c x y n : Nibble) :
    packNibbles c x y n &&& 0xF00F = packNibbles c 0 0 n := by
  rw [packNibbles, show (0xF00F : Word) = 0xF#4 ++ 0x0#4 ++ 0x0#4 ++ 0xF#4 by decide,
    BitVec.and_append, BitVec.and_append, BitVec.and_append]
  simp only [packNibbles, BitVec.and_zero]
  congr 1
  · congr 2
    revert c; decide
  · revert n; decide

/-- Membership and number are read off the table; what is left is the masked word. -/
theorem of_row {i : Instr} (r : OpcodeRow) (hm : r ∈ opcodeTable) (hn : r.number = i.rowNumber)
    (h : encode i &&& r.mask = r.pattern) : Statement i :=
  ⟨r, hm, hn, beq_iff_eq.mpr h⟩

/-! ### One lemma per constructor -/

theorem cls (x : Nibble) : Statement (.cls x) :=
  of_row ⟨1, 0x00E0, 0xF0FF⟩ (by decide) rfl ((packXNN_selector ..).trans rfl)

theorem ret (x : Nibble) : Statement (.ret x) :=
  of_row ⟨2, 0x00EE, 0xF0FF⟩ (by decide) rfl ((packXNN_selector ..).trans rfl)

theorem sys (nnn : Addr) : Statement (.sys nnn) :=
  of_row ⟨3, 0x0000, 0xF000⟩ (by decide) rfl ((packNNN_class ..).trans rfl)

theorem jp (nnn : Addr) : Statement (.jp nnn) :=
  of_row ⟨4, 0x1000, 0xF000⟩ (by decide) rfl ((packNNN_class ..).trans rfl)

theorem call (nnn : Addr) : Statement (.call nnn) :=
  of_row ⟨5, 0x2000, 0xF000⟩ (by decide) rfl ((packNNN_class ..).trans rfl)

theorem seImm (x : Nibble) (nn : Byte) : Statement (.seImm x nn) :=
  of_row ⟨6, 0x3000, 0xF000⟩ (by decide) rfl ((packXNN_class ..).trans rfl)

theorem sneImm (x : Nibble) (nn : Byte) : Statement (.sneImm x nn) :=
  of_row ⟨7, 0x4000, 0xF000⟩ (by decide) rfl ((packXNN_class ..).trans rfl)

theorem seReg (x y n : Nibble) : Statement (.seReg x y n) :=
  of_row ⟨8, 0x5000, 0xF000⟩ (by decide) rfl ((packNibbles_class ..).trans rfl)

theorem ldImm (x : Nibble) (nn : Byte) : Statement (.ldImm x nn) :=
  of_row ⟨9, 0x6000, 0xF000⟩ (by decide) rfl ((packXNN_class ..).trans rfl)

theorem addImm (x : Nibble) (nn : Byte) : Statement (.addImm x nn) :=
  of_row ⟨10, 0x7000, 0xF000⟩ (by decide) rfl ((packXNN_class ..).trans rfl)

theorem ldReg (x y : Nibble) : Statement (.ldReg x y) :=
  of_row ⟨11, 0x8000, 0xF00F⟩ (by decide) rfl ((packNibbles_selector ..).trans rfl)

theorem orReg (x y : Nibble) : Statement (.orReg x y) :=
  of_row ⟨12, 0x8001, 0xF00F⟩ (by decide) rfl ((packNibbles_selector ..).trans rfl)

theorem andReg (x y : Nibble) : Statement (.andReg x y) :=
  of_row ⟨13, 0x8002, 0xF00F⟩ (by decide) rfl ((packNibbles_selector ..).trans rfl)

theorem xorReg (x y : Nibble) : Statement (.xorReg x y) :=
  of_row ⟨14, 0x8003, 0xF00F⟩ (by decide) rfl ((packNibbles_selector ..).trans rfl)

theorem addReg (x y : Nibble) : Statement (.addReg x y) :=
  of_row ⟨15, 0x8004, 0xF00F⟩ (by decide) rfl ((packNibbles_selector ..).trans rfl)

theorem subReg (x y : Nibble) : Statement (.subReg x y) :=
  of_row ⟨16, 0x8005, 0xF00F⟩ (by decide) rfl ((packNibbles_selector ..).trans rfl)

theorem shr (x y : Nibble) : Statement (.shr x y) :=
  of_row ⟨17, 0x8006, 0xF00F⟩ (by decide) rfl ((packNibbles_selector ..).trans rfl)

theorem subnReg (x y : Nibble) : Statement (.subnReg x y) :=
  of_row ⟨18, 0x8007, 0xF00F⟩ (by decide) rfl ((packNibbles_selector ..).trans rfl)

theorem shl (x y : Nibble) : Statement (.shl x y) :=
  of_row ⟨19, 0x800E, 0xF00F⟩ (by decide) rfl ((packNibbles_selector ..).trans rfl)

theorem sneReg (x y n : Nibble) : Statement (.sneReg x y n) :=
  of_row ⟨20, 0x9000, 0xF000⟩ (by decide) rfl ((packNibbles_class ..).trans rfl)

theorem ldI (nnn : Addr) : Statement (.ldI nnn) :=
  of_row ⟨21, 0xA000, 0xF000⟩ (by decide) rfl ((packNNN_class ..).trans rfl)

theorem jpV0 (nnn : Addr) : Statement (.jpV0 nnn) :=
  of_row ⟨22, 0xB000, 0xF000⟩ (by decide) rfl ((packNNN_class ..).trans rfl)

theorem rnd (x : Nibble) (nn : Byte) : Statement (.rnd x nn) :=
  of_row ⟨23, 0xC000, 0xF000⟩ (by decide) rfl ((packXNN_class ..).trans rfl)

theorem drw (x y n : Nibble) : Statement (.drw x y n) :=
  of_row ⟨24, 0xD000, 0xF000⟩ (by decide) rfl ((packNibbles_class ..).trans rfl)

theorem skp (x : Nibble) : Statement (.skp x) :=
  of_row ⟨25, 0xE09E, 0xF0FF⟩ (by decide) rfl ((packXNN_selector ..).trans rfl)

theorem sknp (x : Nibble) : Statement (.sknp x) :=
  of_row ⟨26, 0xE0A1, 0xF0FF⟩ (by decide) rfl ((packXNN_selector ..).trans rfl)

theorem ldVxDt (x : Nibble) : Statement (.ldVxDt x) :=
  of_row ⟨27, 0xF007, 0xF0FF⟩ (by decide) rfl ((packXNN_selector ..).trans rfl)

theorem ldVxK (x : Nibble) : Statement (.ldVxK x) :=
  of_row ⟨28, 0xF00A, 0xF0FF⟩ (by decide) rfl ((packXNN_selector ..).trans rfl)

theorem ldDtVx (x : Nibble) : Statement (.ldDtVx x) :=
  of_row ⟨29, 0xF015, 0xF0FF⟩ (by decide) rfl ((packXNN_selector ..).trans rfl)

theorem ldStVx (x : Nibble) : Statement (.ldStVx x) :=
  of_row ⟨30, 0xF018, 0xF0FF⟩ (by decide) rfl ((packXNN_selector ..).trans rfl)

theorem addIVx (x : Nibble) : Statement (.addIVx x) :=
  of_row ⟨31, 0xF01E, 0xF0FF⟩ (by decide) rfl ((packXNN_selector ..).trans rfl)

theorem ldFVx (x : Nibble) : Statement (.ldFVx x) :=
  of_row ⟨32, 0xF029, 0xF0FF⟩ (by decide) rfl ((packXNN_selector ..).trans rfl)

theorem ldBVx (x : Nibble) : Statement (.ldBVx x) :=
  of_row ⟨33, 0xF033, 0xF0FF⟩ (by decide) rfl ((packXNN_selector ..).trans rfl)

theorem ldMemVx (x : Nibble) : Statement (.ldMemVx x) :=
  of_row ⟨34, 0xF055, 0xF0FF⟩ (by decide) rfl ((packXNN_selector ..).trans rfl)

theorem ldVxMem (x : Nibble) : Statement (.ldVxMem x) :=
  of_row ⟨35, 0xF065, 0xF0FF⟩ (by decide) rfl ((packXNN_selector ..).trans rfl)

end Sys2Proof.Laws.MatchesRow
end

