-- ==== Sys2Proof/Tests/Slice0.lean ====
section
/-! SUPPORT. The model's own tests: ill-formed terms, words written out bit by bit, single cycles with
the results of spec/95_test_vectors.md, and one witness for the hypotheses of each statement. -/

namespace Sys2Proof.Tests

open Sys2Proof.Machine

/-! ### Helpers -/

/-- An input sample in which nothing happens. -/
def quiet : Ports := { keyPressed := 0, keyReleased := 0, rnd := 0, tickDue := false }

/-- A sample with a due tick only. -/
def tickOnly : Ports := { quiet with tickDue := true }

/-- The reset state of an empty image with PC moved, the word w at PC, and one chosen sample. -/
def bootAt (pc : Addr) (w : Nat) (p : Ports) : State :=
  { ({ State.reset with pc := pc } : State).withFetchWord 16 w with
    env := { pending := [p], drawn := 0 } }

/-- As `bootAt`, at the reset PC with quiet inputs. -/
def boot (w : Nat) : State := bootAt 0x200 w quiet

/-- Write some registers. -/
def withRegs (s : State) : List (Nibble × Byte) → State
  | [] => s
  | (x, b) :: rest => withRegs (s.setReg x b) rest

/-- The state after one cycle. -/
def after (s : State) : State :=
  match step s with
  | .next t => t
  | .fault _ => s
  | .refused _ => s

/-! ### WellFormed refuses ill-formed terms -/

/-- SYS with the selector of CLS. -/
theorem test_wellFormed_refuses_sys_e0 : (Instr.sys 0x0E0).wellFormed = false := by decide
/-- SYS with the selector of RET, whatever the rest. -/
theorem test_wellFormed_refuses_sys_ee : (Instr.sys 0x3EE).wellFormed = false := by decide
/-- Their neighbours are well formed. -/
theorem test_wellFormed_accepts_sys :
    (Instr.sys 0x0E1).wellFormed = true ∧ (Instr.sys 0x0EF).wellFormed = true := by decide

/-- Memory that lists a byte equal to its reset content, or addresses out of order, is not canonical. -/
theorem test_memory_wf_refuses :
    Memory.wf (resetByte defaultParams) [(0x300, 0x00)] = false ∧
    Memory.wf (resetByte defaultParams) [(0x301, 0x01), (0x300, 0x01)] = false ∧
    Memory.wf (resetByte defaultParams) [(0x1000, 0x01)] = false := by decide

/-! ### Every constructor's word, bit by bit from the patterns of 30_encoding.md rule R64 -/

theorem test_decode_class_0_to_2 :
    decode 0b0000000011100000#16 = .ok (.cls 0x0) ∧
    decode 0b0000000011101110#16 = .ok (.ret 0x0) ∧
    decode 0b0000000100100011#16 = .ok (.sys 0x123) ∧
    decode 0b0001101010111100#16 = .ok (.jp 0xABC) ∧
    decode 0b0010001101000101#16 = .ok (.call 0x345) := by decide

theorem test_decode_skips :
    decode 0b0011001100101010#16 = .ok (.seImm 0x3 0x2A) ∧
    decode 0b0100001100101010#16 = .ok (.sneImm 0x3 0x2A) ∧
    decode 0b0101000100100111#16 = .ok (.seReg 0x1 0x2 0x7) ∧
    decode 0b1001000100101000#16 = .ok (.sneReg 0x1 0x2 0x8) ∧
    decode 0b1110000110011110#16 = .ok (.skp 0x1) ∧
    decode 0b1110000110100001#16 = .ok (.sknp 0x1) := by decide

theorem test_decode_immediates :
    decode 0b0110000100000101#16 = .ok (.ldImm 0x1 0x05) ∧
    decode 0b0111000111111010#16 = .ok (.addImm 0x1 0xFA) ∧
    decode 0b1010001011110000#16 = .ok (.ldI 0x2F0) ∧
    decode 0b1011001100000000#16 = .ok (.jpV0 0x300) ∧
    decode 0b1100000100001111#16 = .ok (.rnd 0x1 0x0F) ∧
    decode 0b1101000100100101#16 = .ok (.drw 0x1 0x2 0x5) := by decide

theorem test_decode_class_8 :
    decode 0b1000000100100000#16 = .ok (.ldReg 0x1 0x2) ∧
    decode 0b1000000100100001#16 = .ok (.orReg 0x1 0x2) ∧
    decode 0b1000000100100010#16 = .ok (.andReg 0x1 0x2) ∧
    decode 0b1000000100100011#16 = .ok (.xorReg 0x1 0x2) ∧
    decode 0b1000000100100100#16 = .ok (.addReg 0x1 0x2) ∧
    decode 0b1000000100100101#16 = .ok (.subReg 0x1 0x2) ∧
    decode 0b1000000100100110#16 = .ok (.shr 0x1 0x2) ∧
    decode 0b1000000100100111#16 = .ok (.subnReg 0x1 0x2) ∧
    decode 0b1000000100101110#16 = .ok (.shl 0x1 0x2) := by decide

theorem test_decode_class_F :
    decode 0b1111000100000111#16 = .ok (.ldVxDt 0x1) ∧
    decode 0b1111001100001010#16 = .ok (.ldVxK 0x3) ∧
    decode 0b1111000100010101#16 = .ok (.ldDtVx 0x1) ∧
    decode 0b1111000100011000#16 = .ok (.ldStVx 0x1) ∧
    decode 0b1111000100011110#16 = .ok (.addIVx 0x1) ∧
    decode 0b1111000100101001#16 = .ok (.ldFVx 0x1) ∧
    decode 0b1111000100110011#16 = .ok (.ldBVx 0x1) ∧
    decode 0b1111001001010101#16 = .ok (.ldMemVx 0x2) ∧
    decode 0b1111001001100101#16 = .ok (.ldVxMem 0x2) := by decide

/-- The boundary words of 95_test_vectors.md section 2.7. -/
theorem test_decode_boundaries :
    decode 0x00E1 = .ok (.sys 0x0E1) ∧ decode 0x00EF = .ok (.sys 0x0EF) ∧
    decode 0x0FFF = .ok (.sys 0xFFF) ∧ decode 0x8FFE = .ok (.shl 0xF 0xF) ∧
    decode 0x8FF8 = .error (.aluSelector 0x8) ∧ decode 0x8FFF = .error (.aluSelector 0xF) ∧
    decode 0xE09D = .error (.keySelector 0x9D) ∧ decode 0xE0A2 = .error (.keySelector 0xA2) ∧
    decode 0xF000 = .error (.miscSelector 0x00) ∧ decode 0xF066 = .error (.miscSelector 0x66) ∧
    decode 0xFF75 = .error (.miscSelector 0x75) := by decide

/-- The high byte stands first (20_memory.md rule R48), and one byte alone is no instruction. -/
theorem test_decode_bytes :
    decodeBytes [0x1A, 0xBC, 0x77] = .ok (.jp 0xABC, [0x77]) ∧
    decodeBytes [0x1A] = .error .truncated ∧
    encodeBytes (.jp 0xABC) = [0x1A, 0xBC] ∧
    decodeTableWord 16 0x1ABC = some (.jp 0xABC) ∧ decodeTableWord 16 0xF000 = none := by decide

/-! ### Single cycles: the vectors of 95_test_vectors.md, by their names there -/

theorem test_TF1_sys : (after (boot 0x0000)).pc = 0x202 := by decide
theorem test_TF2_sys_range :
    (after (bootAt 0xFFE 0x0000 quiet)).status = { cause := .pcRange, info := 0x1000 } ∧
    (after (bootAt 0xFFE 0x0000 quiet)).pc = 0xFFE := by decide

theorem test_TF4_ret_range :
    (after { boot 0x00EE with sp := 1, stack := Vector.replicate 16 0xFFE }).status =
      { cause := .pcRange, info := 0x1000 } ∧
    (after { boot 0x00EE with sp := 1, stack := Vector.replicate 16 0xFFE }).sp = 1 := by decide
theorem test_TF5_ret :
    (after { boot 0x03EE with sp := 1, stack := Vector.replicate 16 0x250 }).pc = 0x252 ∧
    (after { boot 0x03EE with sp := 1, stack := Vector.replicate 16 0x250 }).sp = 0 := by decide

theorem test_TF7_jp_odd : (after (boot 0x1301)).pc = 0x301 := by decide

/-- The second half of TF6. -/
theorem test_TF6_fetch_bounds :
    (after (bootAt 0xFFF 0x0000 quiet)).status = { cause := .fetchBounds, info := 0xFFF } ∧
    (after (bootAt 0xFFF 0x0000 quiet)).pc = 0xFFF := by decide

theorem test_TF8_call :
    (after { boot 0x2345 with sp := 15 }).pc = 0x345 ∧
    (after { boot 0x2345 with sp := 15 }).sp = 16 ∧
    (after { boot 0x2345 with sp := 15 }).stack[15] = 0x200 := by decide
theorem test_TF9_call_full :
    (after { boot 0x2345 with sp := 16 }).status = { cause := .stackOverflow, info := 0x200 } ∧
    (after { boot 0x2345 with sp := 16 }).pc = 0x200 := by decide

theorem test_TF10_se_taken_range :
    (after (bootAt 0xFFC 0x3100 quiet)).status = { cause := .pcRange, info := 0x1000 } := by decide
theorem test_TF11_se_not_taken : (after (bootAt 0xFFC 0x3101 quiet)).pc = 0xFFE := by decide
theorem test_TF12_sne : (after (boot 0x4100)).pc = 0x202 := by decide
theorem test_TF13_sne_taken : (after (withRegs (boot 0x4100) [(0x1, 0x01)])).pc = 0x204 := by decide
theorem test_TF14_se_reg :
    (after (withRegs (boot 0x5127) [(0x1, 0x09), (0x2, 0x09)])).pc = 0x204 := by decide
theorem test_TF15_sne_reg : (after (withRegs (boot 0x9330) [(0x3, 0x09)])).pc = 0x202 := by decide

theorem test_TF16_jpV0_range :
    (after (withRegs (boot 0xBF01) [(0x0, 0xFF)])).status =
      { cause := .pcRange, info := 0x1000 } := by decide
theorem test_TF17_jpV0 : (after (withRegs (boot 0xBF01) [(0x0, 0xFE)])).pc = 0xFFF := by decide

/-- The second half of TF7: an odd PC is fetched from as it stands. -/
theorem test_TF7_odd_fetch :
    (after (bootAt 0x301 0x6A55 quiet)).reg 0xA = 0x55 ∧
    (after (bootAt 0x301 0x6A55 quiet)).pc = 0x303 := by decide

theorem test_TA2_addImm :
    (after (withRegs (boot 0x7101) [(0x1, 0xFF)])).reg 0x1 = 0x00 ∧
    (after (withRegs (boot 0x7101) [(0x1, 0xFF)])).vf = 0x01 := by decide
theorem test_TA5_addImm_vf : (after (withRegs (boot 0x7F01) [(0xF, 0x05)])).vf = 0x00 := by decide
theorem test_TA6_ldReg : (after (withRegs (boot 0x8120) [(0x2, 0x9C)])).reg 0x1 = 0x9C := by decide
theorem test_TA7_or :
    (after (withRegs (boot 0x8121) [(0x1, 0xF0), (0x2, 0x0F), (0xF, 0x01)])).reg 0x1 = 0xFF ∧
    (after (withRegs (boot 0x8121) [(0x1, 0xF0), (0x2, 0x0F), (0xF, 0x01)])).vf = 0x01 := by decide
theorem test_TA8_and :
    (after (withRegs (boot 0x8122) [(0x1, 0xF0), (0x2, 0x3C)])).reg 0x1 = 0x30 := by decide
theorem test_TA9_xor : (after (withRegs (boot 0x8113) [(0x1, 0x5A)])).reg 0x1 = 0x00 := by decide
theorem test_TA10_addReg :
    (after (withRegs (boot 0x8114) [(0x1, 0x80)])).reg 0x1 = 0x00 ∧
    (after (withRegs (boot 0x8114) [(0x1, 0x80)])).vf = 0x01 := by decide
theorem test_TA11_addReg_vf :
    (after (withRegs (boot 0x8F14) [(0xF, 0xF0), (0x1, 0x20)])).vf = 0x01 := by decide
theorem test_TA13_sub :
    (after (withRegs (boot 0x8125) [(0x1, 0x05), (0x2, 0x07)])).reg 0x1 = 0xFE ∧
    (after (withRegs (boot 0x8125) [(0x1, 0x05), (0x2, 0x07)])).vf = 0x00 := by decide
theorem test_TA14_sub_vf :
    (after (withRegs (boot 0x81F5) [(0x1, 0x05), (0xF, 0x01)])).reg 0x1 = 0x04 ∧
    (after (withRegs (boot 0x81F5) [(0x1, 0x05), (0xF, 0x01)])).vf = 0x01 := by decide
theorem test_TA17_shr :
    (after (withRegs (boot 0x8126) [(0x1, 0xFF)])).reg 0x1 = 0x7F ∧
    (after (withRegs (boot 0x8126) [(0x1, 0xFF)])).vf = 0x01 := by decide
theorem test_TA19_shr_vf : (after (withRegs (boot 0x8F06) [(0xF, 0x02)])).vf = 0x00 := by decide
theorem test_TA20_subn :
    (after (withRegs (boot 0x8127) [(0x1, 0x07), (0x2, 0x05)])).reg 0x1 = 0xFE ∧
    (after (withRegs (boot 0x8127) [(0x1, 0x07), (0x2, 0x05)])).vf = 0x00 := by decide
theorem test_TA22_shl :
    (after (withRegs (boot 0x812E) [(0x1, 0x40), (0x2, 0xFF), (0xF, 0x01)])).reg 0x1 = 0x80 ∧
    (after (withRegs (boot 0x812E) [(0x1, 0x40), (0x2, 0xFF), (0xF, 0x01)])).vf = 0x00 := by decide
theorem test_TA27_rnd :
    (after (bootAt 0x200 0xC1F0 { quiet with rnd := 0xA5 })).reg 0x1 = 0xA0 := by decide

theorem test_TM1_ldI : (after (boot 0xAFFF)).i = 0xFFF := by decide
theorem test_TM2_addI :
    (after { withRegs (boot 0xF11E) [(0x1, 0x01)] with i := 0xFFF }).i = 0x000 ∧
    (after { withRegs (boot 0xF11E) [(0x1, 0x01)] with i := 0xFFF }).vf = 0x01 := by decide
theorem test_TM4_addI_vf :
    (after { withRegs (boot 0xFF1E) [(0xF, 0xFF)] with i := 0xF01 }).i = 0x000 ∧
    (after { withRegs (boot 0xFF1E) [(0xF, 0xFF)] with i := 0xF01 }).vf = 0x01 := by decide
theorem test_TM5_ldF : (after (withRegs (boot 0xF129) [(0x1, 0x0F)])).i = 0x04B := by decide
theorem test_TM6_ldF_index :
    (after (withRegs (boot 0xF129) [(0x1, 0x10)])).status =
      { cause := .digitIndex, info := 0x10 } := by decide
theorem test_TM7_ldB :
    (after { withRegs (boot 0xF133) [(0x1, 0xFF)] with i := 0xFFD }).readBytes 0xFFD 3 =
      [0x02, 0x05, 0x05] := by decide
theorem test_TM9_ldB_font :
    (after { withRegs (boot 0xF133) [(0x1, 0xFF)] with i := 0x04F }).status =
      { cause := .fontWrite, info := 0x04F } ∧
    (after { withRegs (boot 0xF133) [(0x1, 0xFF)] with i := 0x04F }).readBytes 0x04F 3 =
      [0x80, 0x00, 0x00] := by decide
/-- The example of rule R144. -/
theorem test_R144_store :
    (after { withRegs (boot 0xF255) [(0x0, 0x11), (0x1, 0x22), (0x2, 0x33), (0x3, 0x44)] with
      i := 0x400 }).readBytes 0x3FF 5 = [0x00, 0x11, 0x22, 0x33, 0x00] := by decide
theorem test_TM15_store_order :
    (after { bootAt 0xFFE 0xF355 quiet with i := 0x010 }).status =
      { cause := .fontWrite, info := 0x010 } := by decide
theorem test_TM18_load_bounds :
    (after { boot 0xF165 with i := 0xFFF }).status = { cause := .memBounds, info := 0x1000 } := by
  decide
theorem test_TM19_load_font :
    (after (boot 0xF465)).v.toList.take 6 = [0xF0, 0x90, 0x90, 0x90, 0xF0, 0x00] := by decide

/-- P3, cycle 7: glyph 5 at column 62, row 30, drawn over itself: wraps, clips, collides. -/
theorem test_P3_drw :
    (after { withRegs (boot 0xD125) [(0x1, 0x3E), (0x2, 0x1E)] with
      i := 0x019
      fb := ((Vector.replicate 32 0).set 30 0xC000000000000003).set 31 0x2 }).fb =
      Vector.replicate 32 0 ∧
    (after { withRegs (boot 0xD125) [(0x1, 0x3E), (0x2, 0x1E)] with
      i := 0x019
      fb := ((Vector.replicate 32 0).set 30 0xC000000000000003).set 31 0x2 }).vf = 0x01 := by decide
/-- P3's end state under QUIRK_VWRAP = true. -/
theorem test_P3_drw_vwrap :
    (after { withRegs (boot 0xD125) [(0x1, 0x3E), (0x2, 0x1E)] with
      i := 0x019, params := { defaultParams with quirkVwrap := true } }).fb =
      (((((Vector.replicate 32 0).set 0 0xC000000000000003).set 1 0x4000000000000000).set 2
        0xC000000000000003).set 30 0xC000000000000003).set 31 0x2 := by decide
theorem test_TD17_cls :
    (after { boot 0x0AE0 with fb := (Vector.replicate 32 0).set 5 0xFF00000000000000 }).fb =
      Vector.replicate 32 0 := by decide

theorem test_TK1_skp_index :
    (after (withRegs (boot 0xE19E) [(0x1, 0x10)])).status =
      { cause := .keyIndex, info := 0x10 } := by decide
theorem test_TK2_skp :
    (after (withRegs (bootAt 0x200 0xE19E { quiet with keyPressed := 0x0002 })
      [(0x1, 0x01)])).pc = 0x204 := by decide
theorem test_TK4_sknp :
    (after { withRegs (bootAt 0x200 0xE1A1 { quiet with keyReleased := 0x0008 }) [(0x1, 0x03)] with
      held := 0x0008 }).pc = 0x204 := by decide
theorem test_TK8_key :
    (after (bootAt 0x200 0xF10A { quiet with keyPressed := 0x8090 })).reg 0x1 = 0x04 ∧
    (after (bootAt 0x200 0xF10A { quiet with keyPressed := 0x8090 })).newly = 0x8090 := by decide
theorem test_TK9_key_held :
    (after { boot 0xF10A with held := 0x0001 }).pc = 0x200 := by decide
theorem test_TK13_ldVxDt :
    (after { bootAt 0x200 0xF107 tickOnly with dt := 5 }).reg 0x1 = 5 ∧
    (after { bootAt 0x200 0xF107 tickOnly with dt := 5 }).dt = 4 := by decide
theorem test_TK14_ldDtVx :
    (after (withRegs (bootAt 0x200 0xF115 tickOnly) [(0x1, 0x05)])).dt = 4 := by decide
theorem test_TK16_ldStVx_zero :
    (after { boot 0xF118 with st := 5, toneEn := true }).st = 0 ∧
    (after { boot 0xF118 with st := 5, toneEn := true }).toneEn = false := by decide
theorem test_TK18_tick :
    (after { bootAt 0x200 0x6000 tickOnly with st := 1, toneEn := true }).toneEn = false := by decide
/-- The tick of a faulting cycle is skipped, its key latch is not. -/
theorem test_TK20_decode_fault :
    (after { bootAt 0x200 0x8128 { tickOnly with keyPressed := 0x0004 } with dt := 5 }).status =
      { cause := .decode, info := 0x81280200 } ∧
    (after { bootAt 0x200 0x8128 { tickOnly with keyPressed := 0x0004 } with dt := 5 }).dt = 5 ∧
    (after { bootAt 0x200 0x8128 { tickOnly with keyPressed := 0x0004 } with dt := 5 }).held =
      0x0004 := by decide

/-- The codes of 60_exceptions.md rule R171. -/
theorem test_cause_codes :
    [Cause.run, .loadSize, .decode, .stackOverflow, .stackUnderflow, .memBounds, .fetchBounds,
      .pcRange, .fontWrite, .keyIndex, .digitIndex].map Cause.code =
      [0, 1, 2, 3, 4, 5, 6, 7, 8, 9, 10] := by decide

/-! ### Witnesses: states and operands that meet the hypotheses of the statements, clause by clause,
at the boundary of each clause's range -/

/-- PC at the last address the default advance can leave, and at the first it cannot: the hypotheses of
SysOnlyAdvances (second part), LdImmediate, AddImmediate, LdRegister, AddRegister, SubRegister,
ShiftRight, SubNegated, ShiftLeft, LdIndex, AddIndex, ClsClearsTheScreen, LdFromDelayTimer,
LdDelayTimer and LdSoundTimer, and the advance clauses of every other statement that has them. -/
theorem witness_default_advance :
    (bootAt 0xFFD 0x0000 quiet).pc.toNat + 2 ≤ 0xFFF ∧
    0xFFF < (bootAt 0xFFE 0x0000 quiet).pc.toNat + 2 := by decide

/-- The NNN of SysOnlyAdvances: the neighbours of the two selectors, and the two ends. -/
theorem witness_SysOnlyAdvances :
    ∀ nnn ∈ [0x000#12, 0x0DF#12, 0x0E1#12, 0x0ED#12, 0x0EF#12, 0xFFF#12],
      nnn.setWidth 8 ≠ 0xE0#8 ∧ nnn.setWidth 8 ≠ 0xEE#8 := by decide

/-- A state with n addresses on the stack, all of them a. -/
def stacked (n : Fin 17) (a : Addr) : State :=
  { State.reset with sp := n, stack := Vector.replicate 16 a }

theorem witness_RetPopsAndAdvances :
    (stacked 0 0).sp.val = 0 ∧
    (stacked 1 0xFFD).sp.val = (0 : Fin 16).val + 1 ∧
    (stacked 1 0xFFD).stack[(0 : Fin 16)].toNat + 2 ≤ 0xFFF ∧
    (stacked 16 0xFFE).sp.val = (15 : Fin 16).val + 1 ∧
    0xFFF < (stacked 16 0xFFE).stack[(15 : Fin 16)].toNat + 2 := by decide

theorem witness_CallPushesItsOwnAddress :
    (stacked 0 0).sp.val = (0 : Fin 16).val ∧ (stacked 15 0).sp.val = (15 : Fin 16).val ∧
    (stacked 16 0).sp.val = 16 := by decide

/-- The four clauses of a skip; V3 is 0 in each state. -/
theorem witness_SkipOnImmediate :
    ((bootAt 0xFFB 0 quiet).reg 0x3 = 0x00 ∧ (bootAt 0xFFB 0 quiet).pc.toNat + 4 ≤ 0xFFF) ∧
    ((bootAt 0xFFC 0 quiet).reg 0x3 = 0x00 ∧ 0xFFF < (bootAt 0xFFC 0 quiet).pc.toNat + 4) ∧
    (¬(bootAt 0xFFD 0 quiet).reg 0x3 = 0x01 ∧ (bootAt 0xFFD 0 quiet).pc.toNat + 2 ≤ 0xFFF) ∧
    (¬(bootAt 0xFFE 0 quiet).reg 0x3 = 0x01 ∧ 0xFFF < (bootAt 0xFFE 0 quiet).pc.toNat + 2) := by
  decide

/-- As above, against VF = 1. -/
theorem witness_SkipOnRegisters :
    let s (pc : Addr) := (bootAt pc 0 quiet).setReg 0xF 1
    ((s 0xFFB).reg 0x0 = (s 0xFFB).reg 0x1 ∧ (s 0xFFB).pc.toNat + 4 ≤ 0xFFF) ∧
    ((s 0xFFC).reg 0x0 = (s 0xFFC).reg 0x1 ∧ 0xFFF < (s 0xFFC).pc.toNat + 4) ∧
    (¬(s 0xFFD).reg 0x0 = (s 0xFFD).reg 0xF ∧ (s 0xFFD).pc.toNat + 2 ≤ 0xFFF) ∧
    (¬(s 0xFFE).reg 0x0 = (s 0xFFE).reg 0xF ∧ 0xFFF < (s 0xFFE).pc.toNat + 2) := by decide

theorem witness_JpV0AddsV0 :
    (0xF00#12).toNat + ((boot 0).setReg 0x0 0xFF |>.reg 0x0).toNat ≤ 0xFFF ∧
    0xFFF < (0xF01#12).toNat + ((boot 0).setReg 0x0 0xFF |>.reg 0x0).toNat := by decide

/-- The byte of each of the three clauses, for V1 = 0xF0 and V2 = 0x3C. -/
theorem witness_LogicOperations :
    let s := withRegs (boot 0) [(0x1, 0xF0), (0x2, 0x3C)]
    (∀ k : Fin 8, (0xFC : Byte)[k] = ((s.reg 0x1)[k] || (s.reg 0x2)[k])) ∧
    (∀ k : Fin 8, (0x30 : Byte)[k] = ((s.reg 0x1)[k] && (s.reg 0x2)[k])) ∧
    (∀ k : Fin 8, (0xCC : Byte)[k] = ((s.reg 0x1)[k] != (s.reg 0x2)[k])) := by decide

/-- A state whose feed holds a sample, and one whose feed is empty. -/
theorem witness_RndMasksTheDraw :
    (boot 0xC10F).env.pending = quiet :: [] ∧ State.reset.env.pending = [] := by decide

theorem witness_LdGlyphAddress :
    ((boot 0).setReg 0x1 15 |>.reg 0x1).toNat ≤ 15 ∧
    15 < ((boot 0).setReg 0x1 16 |>.reg 0x1).toNat := by decide

/-- A state with I as given. -/
def withI (i : Addr) : State := { boot 0 with i := i }

theorem witness_StoreBcd :
    0xFFF < (withI 0xFFE).i.toNat + 2 ∧
    (withI 0x04F).i.toNat < 0x050 ∧
    (0x050 ≤ (withI 0x050).i.toNat ∧ (withI 0x050).i.toNat + 2 ≤ 0xFFF) ∧
    (0x050 ≤ (withI 0xFFD).i.toNat ∧ (withI 0xFFD).i.toNat + 2 ≤ 0xFFF) ∧
    ((withI 0x050).setReg 0x1 255 |>.reg 0x1).toNat = 100 * 2 + 10 * 5 + 5 := by decide

theorem witness_StoreRegisters :
    0xFFF < (withI 0xFF1).i.toNat + (0xF#4).toNat ∧
    (withI 0x04F).i.toNat < 0x050 ∧
    (0x050 ≤ (withI 0x050).i.toNat ∧ (withI 0x050).i.toNat + (0x0#4).toNat ≤ 0xFFF) ∧
    (0x050 ≤ (withI 0xFF0).i.toNat ∧ (withI 0xFF0).i.toNat + (0xF#4).toNat ≤ 0xFFF) := by decide

theorem witness_LoadRegisters :
    0xFFF < (withI 0xFF1).i.toNat + (0xF#4).toNat ∧
    (withI 0xFF0).i.toNat + (0xF#4).toNat ≤ 0xFFF ∧
    (withI 0xFFF).i.toNat + (0x0#4).toNat ≤ 0xFFF := by decide

/-- The glyph "0" has an on pixel at column 0, row 0. -/
theorem sprite_glyph_zero (s : State) (hi : s.i = 0) (hm : s.readByte 0 = 0xF0)
    (hq : s.params.quirkVwrap = false) (n : Nat) (hn : 0 < n) : SpritePixel s 0 0 n 0 0 := by
  refine ⟨0, 0, hn, by decide, rfl, ?_, ?_⟩
  · simp [hq]
  · simp only [hi, Nat.add_zero]
    exact hm ▸ rfl

/-- The range clauses at their ends (N = 0 included), and a pixel that is on, drawn over one that is
off and over one that is on. -/
theorem witness_DrwFlipsTheSpritesPixels :
    (0 < (0x2#4).toNat ∧ 0xFFF < (withI 0xFFF).i.toNat + (0x2#4).toNat - 1) ∧
    (withI 0xFFF).i.toNat + (0x1#4).toNat - 1 ≤ 0xFFF ∧
    (0x0#4).toNat = 0 ∧
    SpritePixel (withI 0) ((withI 0).reg 0x0) ((withI 0).reg 0x1) (0x5#4).toNat 0 0 ∧
    (withI 0).pixel 0 0 = false ∧
    ({ withI 0 with fb := (Vector.replicate 32 0).set 0 0x8000000000000000 } : State).pixel 0 0 =
      true :=
  ⟨by decide, by decide, by decide, sprite_glyph_zero _ rfl (by decide) rfl _ (by decide),
    by decide, by decide⟩

theorem witness_FirstDrawAfterClsReportsNoCollision :
    ∃ s t u : State, s.Running ∧ exec (.cls 0x0) s = .next t ∧ t.Running ∧
      exec (.drw 0x0 0x1 0x5) t = .next u ∧ u.Running :=
  ⟨withI 0, _, _, rfl, rfl, rfl, rfl, by show _ = _; decide⟩

/-- Two draws of the glyph "0" at (0, 0) with a pixel that was off; the same with X = Y = 0xF, which the
first draw leaves at 0; and two draws of no row, where no pixel was off. -/
theorem witness_DrawingTwiceRestoresTheScreen :
    (∃ s t u : State, s.Running ∧ exec (.drw 0x0 0x1 0x5) s = .next t ∧ t.Running ∧
      t.reg 0x0 = s.reg 0x0 ∧ t.reg 0x1 = s.reg 0x1 ∧
      exec (.drw 0x0 0x1 0x5) t = .next u ∧ u.Running ∧
      ∃ c r, SpritePixel s (s.reg 0x0) (s.reg 0x1) (0x5#4).toNat c r ∧ s.pixel c r = false) ∧
    (∃ s t u : State, s.Running ∧ exec (.drw 0xF 0xF 0x5) s = .next t ∧ t.Running ∧
      t.reg 0xF = s.reg 0xF ∧ exec (.drw 0xF 0xF 0x5) t = .next u ∧ u.Running ∧
      ∃ c r, SpritePixel s (s.reg 0xF) (s.reg 0xF) (0x5#4).toNat c r ∧ s.pixel c r = false) ∧
    (∃ s t u : State, s.Running ∧ exec (.drw 0x0 0x1 0x0) s = .next t ∧ t.Running ∧
      t.reg 0x0 = s.reg 0x0 ∧ t.reg 0x1 = s.reg 0x1 ∧
      exec (.drw 0x0 0x1 0x0) t = .next u ∧ u.Running ∧
      ¬∃ c r, SpritePixel s (s.reg 0x0) (s.reg 0x1) (0x0#4).toNat c r ∧ s.pixel c r = false) :=
  ⟨⟨withI 0, _, _, rfl, rfl, by show _ = _; decide, by decide, by decide, rfl,
      by show _ = _; decide, 0, 0, sprite_glyph_zero _ rfl (by decide) rfl _ (by decide), by decide⟩,
    ⟨withI 0, _, _, rfl, rfl, by show _ = _; decide, by decide, rfl, by show _ = _; decide,
      0, 0, sprite_glyph_zero _ rfl (by decide) rfl _ (by decide), by decide⟩,
    ⟨withI 0, _, _, rfl, rfl, by show _ = _; decide, by decide, by decide, rfl,
      by show _ = _; decide, fun ⟨_, _, ⟨_, _, hk, _⟩, _⟩ => Nat.not_lt_zero _ hk⟩⟩

/-- The last key and the first value that is none; key 0 held and key 15 not. -/
theorem witness_SkipOnKey :
    let s := { (boot 0).setReg 0x1 15 with held := 0x0001 }
    (s.reg 0x0).toNat = (0 : Fin 16).val ∧ s.held[(0 : Fin 16)] = true ∧
    (s.reg 0x1).toNat = (15 : Fin 16).val ∧ s.held[(15 : Fin 16)] = false ∧
    15 < ((s.setReg 0x1 16).reg 0x1).toNat := by decide

/-- No newly pressed key; key 15 alone; keys 0 and 15. -/
theorem witness_KeyWait :
    (boot 0).newly = 0 ∧
    ((0x8000 : Word)[(15 : Fin 16)] = true ∧
      ∀ j : Fin 16, j < 15 → (0x8000 : Word)[j] = false) ∧
    ((0x8001 : Word)[(0 : Fin 16)] = true ∧
      ∀ j : Fin 16, j < 0 → (0x8001 : Word)[j] = false) := by decide

/-- A running state at 0xFFE whose JP completes without and with a tick, and a RET that faults. -/
theorem witness_StepRunsDecodedInstruction :
    ∃ s₁ s₂ s₃ t₁ t₂ t₃ : State,
      (s₁.Running ∧ s₁.pc.toNat + 1 ≤ 0xFFF ∧
        decode (s₁.readByte s₁.pc.toNat ++ s₁.readByte (s₁.pc.toNat + 1)) = .ok (.jp 0x200) ∧
        exec (.jp 0x200) (latchKeys s₁) = .next t₁ ∧ t₁.Running ∧ s₁.ports.tickDue = false) ∧
      (s₂.Running ∧ s₂.pc.toNat + 1 ≤ 0xFFF ∧
        decode (s₂.readByte s₂.pc.toNat ++ s₂.readByte (s₂.pc.toNat + 1)) = .ok (.jp 0x200) ∧
        exec (.jp 0x200) (latchKeys s₂) = .next t₂ ∧ t₂.Running ∧ s₂.ports.tickDue = true) ∧
      (s₃.Running ∧ s₃.pc.toNat + 1 ≤ 0xFFF ∧
        decode (s₃.readByte s₃.pc.toNat ++ s₃.readByte (s₃.pc.toNat + 1)) = .ok (.ret 0x0) ∧
        exec (.ret 0x0) (latchKeys s₃) = .next t₃ ∧ ¬t₃.Running) :=
  ⟨bootAt 0xFFE 0x1200 quiet, bootAt 0xFFE 0x1200 tickOnly, bootAt 0xFFE 0x00EE quiet, _, _, _,
    ⟨rfl, by decide, by decide, rfl, rfl, rfl⟩,
    ⟨rfl, by decide, by decide, rfl, rfl, rfl⟩,
    ⟨rfl, by decide, by decide, rfl, by show ¬(_ = _); decide⟩⟩

theorem witness_FetchAndDecodeFaults :
    (bootAt 0xFFF 0 quiet).Running ∧ (bootAt 0xFFF 0 quiet).pc = 0xFFF ∧
    (bootAt 0xFFE 0x8128 quiet).Running ∧ (bootAt 0xFFE 0x8128 quiet).pc.toNat + 1 ≤ 0xFFF ∧
    decode ((bootAt 0xFFE 0x8128 quiet).readByte 0xFFE ++
      (bootAt 0xFFE 0x8128 quiet).readByte 0xFFF) = .error (.aluSelector 0x8) :=
  ⟨rfl, rfl, rfl, by decide, by decide⟩

/-- A stopped state, and images of the largest accepted and the smallest rejected length. -/
theorem witness_StoppedCoreNeverChanges :
    ¬(after (boot 0x00EE)).Running ∧ Reaches (after (boot 0x00EE)) (after (boot 0x00EE)) ∧
    (List.replicate 3584 (0 : Byte)).length ≤ 3584 ∧
    ¬(List.replicate 3585 (0 : Byte)).length ≤ 3584 :=
  ⟨by show ¬(_ = _); decide, .refl _, by rw [List.length_replicate],
    by rw [List.length_replicate]; decide⟩

/-- RET on an empty stack: a running state whose step ends stopped. -/
theorem witness_FaultsArePrecise :
    ∃ s t : State, s.Running ∧ step s = .next t ∧ ¬t.Running :=
  ⟨boot 0x00EE, _, rfl, rfl, by show ¬(_ = _); decide⟩

/-- For each cause that a cycle can raise, a running state and its next state with that cause. -/
theorem witness_InformationWordOfEachCause :
    (after (boot 0x0000)).status.cause = .run ∧
    (after (boot 0x8128)).status.cause = .decode ∧
    (after { boot 0x2345 with sp := 16 }).status.cause = .stackOverflow ∧
    (after (boot 0x00EE)).status.cause = .stackUnderflow ∧
    (after { boot 0xF165 with i := 0xFFF }).status.cause = .memBounds ∧
    (after (bootAt 0xFFF 0 quiet)).status.cause = .fetchBounds ∧
    (after (bootAt 0xFFE 0 quiet)).status.cause = .pcRange ∧
    (after (boot 0xF055)).status.cause = .fontWrite ∧
    (after ((boot 0xE09E).setReg 0x0 0x10)).status.cause = .keyIndex ∧
    (after ((boot 0xF029).setReg 0x0 0x10)).status.cause = .digitIndex := by decide

theorem witness_TickCountsDown :
    ({ boot 0 with st := 1 } : State).st = 1 ∧ (boot 0).st ≠ 1 ∧
    ({ boot 0 with st := 2 } : State).st ≠ 1 := by decide

theorem witness_KeyWaitBlocksUntilAPressEdge :
    (AwaitingKey (bootAt 0x200 0xF30A quiet) ∧
      (bootAt 0x200 0xF30A quiet).ports.tickDue = false) ∧
    (AwaitingKey (bootAt 0x200 0xF30A tickOnly) ∧
      (bootAt 0x200 0xF30A tickOnly).ports.tickDue = true) :=
  ⟨⟨⟨rfl, rfl, 0x3, by decide⟩, rfl⟩, ⟨⟨rfl, rfl, 0x3, by decide⟩, rfl⟩⟩

theorem witness_TimersDropAtMostOncePerCycle :
    ∃ s t : State, step s = .next t ∧ (∀ x, fetchDecode s ≠ .ok (.ldDtVx x)) ∧
      ∀ x, fetchDecode s ≠ .ok (.ldStVx x) :=
  ⟨{ bootAt 0x200 0x6000 tickOnly with dt := 5, st := 1 }, _, rfl, by decide, by decide⟩

theorem witness_TonePulseWithinOneCycle :
    ∃ s : State, s.Running ∧ fetchDecode s = .ok (.ldStVx 0x1) ∧ s.reg 0x1 = 1 ∧
      s.pc.toNat + 2 ≤ 0xFFF ∧ s.ports.tickDue = true :=
  ⟨(bootAt 0xFFD 0xF118 tickOnly).setReg 0x1 1, rfl, by decide, by decide, by decide, rfl⟩

/-- A completed SYS is no writer of either timer, alone and in a cycle without a tick; the two ends of
the decrement. -/
theorem witness_TimersHaveOnlyTheirWriters :
    (∃ s t : State, exec (.sys 0x123) s = .next t ∧ (∀ x, Instr.sys 0x123 ≠ .ldDtVx x) ∧
      ∀ x, Instr.sys 0x123 ≠ .ldStVx x) ∧
    (∃ s t : State, step s = .next t ∧ s.ports.tickDue = false ∧
      (∀ x, fetchDecode s ≠ .ok (.ldDtVx x)) ∧ ∀ x, fetchDecode s ≠ .ok (.ldStVx x)) ∧
    ((boot 0).dt = 0 ∧ (boot 0).st = 0) ∧
    1 ≤ ({ boot 0 with dt := 1, st := 1 } : State).dt.toNat ∧
    1 ≤ ({ boot 0 with dt := 1, st := 255 } : State).st.toNat :=
  ⟨⟨boot 0, _, rfl, by decide, by decide⟩, ⟨boot 0, _, rfl, rfl, by decide, by decide⟩,
    by decide, by decide, by decide⟩

/-- One writer for each clause whose hypothesis is a change. -/
theorem witness_SpecialStateHasOnlyItsWriters :
    (after (boot 0xA123)).i ≠ (boot 0xA123).i ∧
    (after (boot 0x2345)).sp ≠ (boot 0x2345).sp ∧
    (after (boot 0x2345)).stack ≠ (boot 0x2345).stack ∧
    (after (boot 0xD015)).fb ≠ (boot 0xD015).fb ∧
    (after { (boot 0xF055).setReg 0x0 7 with i := 0x050 }).readByte 0x050 ≠
      (boot 0xF055).readByte 0x050 := by decide

theorem witness_FlagHasOnlyItsWriters :
    ∃ s t : State, exec (.ldImm 0xF 0xAB) s = .next t ∧ t.reg 0xF ≠ s.reg 0xF :=
  ⟨boot 0, _, rfl, by decide⟩

theorem witness_SoundIsNeverRead : ∃ s t : State, exec (.ldVxDt 0x1) s = .next t :=
  ⟨boot 0, _, rfl⟩

theorem witness_FontRegionIsReadOnly :
    ∃ s t : State, exec (.ldMemVx 0xF) s = .next t ∧ t.Running ∧ 0x04F < 0x050 :=
  ⟨withI 0x050, _, rfl, by show _ = _; decide, by decide⟩

theorem witness_RetUndoesCall :
    ∃ s t u : State, s.Running ∧ exec (.call 0x345) s = .next t ∧ t.Running ∧ u.sp = t.sp ∧
      u.stack = t.stack ∧ s.pc.toNat + 2 ≤ 0xFFF :=
  ⟨bootAt 0xFFD 0x2345 quiet, _, _, rfl, rfl, rfl, rfl, rfl, by decide⟩

theorem witness_LoadUndoesStore :
    ∃ s t w : State, s.Running ∧ exec (.ldMemVx 0xF) s = .next t ∧ t.Running ∧
      exec (.ldVxMem 0xF) t = .next w ∧ w.Running :=
  ⟨withI 0xFF0, _, _, rfl, rfl, by show _ = _; decide, rfl, by show _ = _; decide⟩

/-- FX55 of V0, V1 and FX33 of 255, both at 0x202, and the fetch addresses at which the word starts one
byte before the stored range, inside it, and at its last byte. -/
theorem witness_StoresAreSeenByTheNextFetch :
    (∃ s t : State, s.Running ∧ t.Running ∧ exec (.ldMemVx 0x1) s = .next t ∧
      s.i.toNat = 0x202 ∧ ∀ a ∈ [0x201#12, 0x202#12, 0x203#12], a.toNat + 1 ≤ 0xFFF) ∧
    (∃ s t : State, s.Running ∧ t.Running ∧ exec (.ldBVx 0x1) s = .next t ∧
      (s.reg 0x1).toNat = 100 * 2 + 10 * 5 + 5 ∧ s.i.toNat = 0x202 ∧
      ∀ a ∈ [0x201#12, 0x203#12, 0x204#12, 0xFFE#12], a.toNat + 1 ≤ 0xFFF) :=
  ⟨⟨withI 0x202, _, rfl, by show _ = _; decide, rfl, by decide, by decide⟩,
    ⟨(withI 0x202).setReg 0x1 255, _, rfl, by show _ = _; decide, rfl, by decide, by decide,
      by decide⟩⟩

/-- The reset state with one chosen sample meets the invariant, and its step goes on. -/
theorem inv_boot : Inv { State.reset with env := { pending := [quiet], drawn := 0 } } where
  memWf := rfl
  font := by
    intro a ha
    show resetByte defaultParams a = _
    rw [resetByte, dif_pos ha]
    rfl
  tone := by decide
  info := fun _ => rfl

theorem witness_StepKeepsInvariant : ∃ s t : State, Inv s ∧ step s = .next t ∧ t.Running :=
  ⟨_, _, inv_boot, rfl, rfl⟩

/-- The lengths, and the addresses, at the ends of the clauses. -/
theorem witness_LoadCopiesOrRejectsTheImage :
    (List.replicate 3584 (0 : Byte)).length ≤ 3584 ∧
    3584 < (List.replicate 3585 (0 : Byte)).length ∧
    (3583 < (List.replicate 3584 (0 : Byte)).length) ∧
    (0x50 ≤ 0x50 ∧ (0x50 < 0x200 ∨ 0x200 + ([] : List Byte).length ≤ 0x50)) ∧
    (0x50 ≤ 0x200 ∧ (0x200 < 0x200 ∨ 0x200 + ([] : List Byte).length ≤ 0x200)) ∧
    79 < 80 := by
  rw [List.length_replicate, List.length_replicate]
  decide

theorem witness_DecodeOfEncode :
    (Instr.drw 0x1 0x2 0x5).wellFormed = true ∧ (Instr.sys 0x0E1).wellFormed = true := by decide

theorem witness_EncodeOfDecode : decode 0x8126 = .ok (.shr 0x1 0x2) := by decide

theorem witness_DispatchAgreesWithOpcodeTable :
    decode 0x00E0 = .ok (.cls 0x0) ∧ ∃ e, decode 0xFF75 = .error e := ⟨by decide, _, rfl⟩

end Sys2Proof.Tests
end

/-! PROOFS. What exec leaves unchanged, from what its effect leaves unchanged; then the rules of
10_state.md about the writers of each piece of state, the invariant, and the reset values. -/

namespace Sys2Proof.Machine

/-! ### Frames: what an instruction keeps follows from what its effect keeps -/

/-- An observation of the state that PC and status have no part in. -/
def IgnoresPcStatus {α : Type} (f : State → α) : Prop :=
  ∀ (s : State) (p : Addr) (r : Status), f { s with pc := p, status := r } = f s

/-- What no fault, no advance and no effect of i changes, exec i does not change. -/
theorem exec_keeps {α : Type} (f : State → α) {i : Instr} {s t : State} (h : exec i s = .next t)
    (he : f (effect i s) = f s) (hf : IgnoresPcStatus f := by exact fun _ _ _ => rfl) :
    f t = f s := by
  rcases exec_inversion h with ⟨c, n, -, rfl⟩ | ⟨-, p, rfl⟩
  · exact hf s s.pc _
  · exact (hf (effect i s) p (effect i s).status).trans he

/-- What exec i changes, the effect of i changes. -/
theorem effect_ne_of_exec_ne {α : Type} (f : State → α) {i : Instr} {s t : State}
    (h : exec i s = .next t) (hne : f t ≠ f s)
    (hf : IgnoresPcStatus f := by exact fun _ _ _ => rfl) : f (effect i s) ≠ f s :=
  fun he => hne (exec_keeps f h he hf)

/-- Phase (b) ends in a fault of fetch or decode, or as the decoded instruction does. -/
theorem executeOne_inversion {s t : State} (h : executeOne s = .next t) :
    (∃ c n, c ≠ .run ∧ t = takeFault c n s) ∨
    ∃ i, fetchDecode s = .ok i ∧ exec i s = .next t := by
  rcases executeOne_cases s with ⟨-, e⟩ | ⟨-, _, -, e⟩ | ⟨-, i, -, hi, e⟩
  · exact .inl ⟨_, _, by decide, Host.Outcome.next.inj (h.symm.trans e)⟩
  · exact .inl ⟨_, _, by decide, Host.Outcome.next.inj (h.symm.trans e)⟩
  · exact .inr ⟨i, hi, e.symm.trans h⟩

/-- `exec_keeps` for phase (b) as a whole, whose own faults write status only. -/
theorem executeOne_keeps {α : Type} (f : State → α) {s t : State} (h : executeOne s = .next t)
    (he : ∀ i, fetchDecode s = .ok i → f (effect i s) = f s)
    (hf : IgnoresPcStatus f := by exact fun _ _ _ => rfl) : f t = f s := by
  rcases executeOne_inversion h with ⟨c, n, -, rfl⟩ | ⟨i, hi, hexec⟩
  · exact hf s s.pc _
  · exact exec_keeps f hexec (he i hi) hf

/-! ### The effect's writers, field by field -/

section
variable {i : Instr} {s : State}

theorem effect_dt (h : ∀ x, i ≠ .ldDtVx x) : (effect i s).dt = s.dt := by
  cases i with
  | ldDtVx x => exact absurd rfl (h x)
  | _ => rfl

theorem effect_st (h : ∀ x, i ≠ .ldStVx x) : (effect i s).st = s.st := by
  cases i with
  | ldStVx x => exact absurd rfl (h x)
  | _ => rfl

theorem effect_toneEn (h : ∀ x, i ≠ .ldStVx x) : (effect i s).toneEn = s.toneEn := by
  cases i with
  | ldStVx x => exact absurd rfl (h x)
  | _ => rfl

theorem writer_of_effect_i_ne (h : (effect i s).i ≠ s.i) :
    (∃ nnn, i = .ldI nnn) ∨ (∃ x, i = .addIVx x) ∨ (∃ x, i = .ldFVx x) := by
  cases i with
  | ldI nnn => exact .inl ⟨nnn, rfl⟩
  | addIVx x => exact .inr (.inl ⟨x, rfl⟩)
  | ldFVx x => exact .inr (.inr ⟨x, rfl⟩)
  | _ => exact absurd rfl h

theorem writer_of_effect_sp_ne (h : (effect i s).sp ≠ s.sp) :
    (∃ nnn, i = .call nnn) ∨ (∃ x, i = .ret x) := by
  cases i with
  | call nnn => exact .inl ⟨nnn, rfl⟩
  | ret x => exact .inr ⟨x, rfl⟩
  | _ => exact absurd rfl h

theorem writer_of_effect_stack_ne (h : (effect i s).stack ≠ s.stack) : ∃ nnn, i = .call nnn := by
  cases i with
  | call nnn => exact ⟨nnn, rfl⟩
  | _ => exact absurd rfl h

theorem writer_of_effect_fb_ne (h : (effect i s).fb ≠ s.fb) :
    (∃ x, i = .cls x) ∨ (∃ x y n, i = .drw x y n) := by
  cases i with
  | cls x => exact .inl ⟨x, rfl⟩
  | drw x y n => exact .inr ⟨x, y, n, rfl⟩
  | _ => exact absurd rfl h

theorem writer_of_effect_readByte_ne {a : Nat} (h : (effect i s).readByte a ≠ s.readByte a) :
    (∃ x, i = .ldBVx x) ∨ (∃ x, i = .ldMemVx x) := by
  cases i with
  | ldBVx x => exact .inl ⟨x, rfl⟩
  | ldMemVx x => exact .inr ⟨x, rfl⟩
  | _ => exact absurd rfl h

end

/-! ### Reset -/

/-- Whatever the image, reset differs from the cleared machine in memory and status only. -/
theorem resetWith_eq_cleared (p : Params) (image : List Byte) :
    ∃ m r, resetWith p image = { State.cleared p with mem := m, status := r } := by
  unfold resetWith
  split
  · exact ⟨_, _, rfl⟩
  · exact ⟨_, _, rfl⟩

/-- Settles O54: memory and status apart, reset gives the cleared machine. -/
theorem resetRegisterValues : Obligations.ResetRegisterValues := by
  unfold Obligations.ResetRegisterValues
  intro p image
  obtain ⟨m, r, h⟩ := resetWith_eq_cleared p image
  rw [h]
  simp [State.cleared, State.reg]

/-! ### The invariant -/

/-- The invariant looks at memory, the parameters, ST, the tone gate and status only. -/
theorem Inv.congr {s t : State} (hs : Inv s) (hm : t.mem = s.mem) (hp : t.params = s.params)
    (hst : t.st = s.st) (ht : t.toneEn = s.toneEn) (hr : t.status = s.status) : Inv t where
  memWf := by rw [State.fill, hm, hp]; exact hs.memWf
  font a ha := by rw [State.readByte_congr hm hp]; simpa only [hp] using hs.font a ha
  tone := by rw [ht, hst]; exact hs.tone
  info := by rw [hr]; exact hs.info

/-- A fault keeps the invariant: the core no longer runs, so info is free. -/
theorem Inv.takeFault {s : State} {c : Cause} (hs : Inv s) (hc : c ≠ .run) (n : Nat) :
    Inv (takeFault c n s) where
  memWf := hs.memWf
  font := hs.font
  tone := hs.tone
  info h := absurd h hc

/-- Stores above the font region and inside memory keep the invariant. -/
theorem Inv.storeBytes {s : State} (hs : Inv s) {lo : Nat} {bs : List Byte} (hlo : 0x050 ≤ lo)
    (hhi : lo + bs.length ≤ 0x1000) : Inv (s.storeBytes lo bs) where
  memWf := Memory.wf_writeBytes hhi hs.memWf
  font a ha := by
    rw [State.readByte_storeBytes, dif_neg (by omega)]
    exact hs.font a ha
  tone := hs.tone
  info := hs.info

/-- FX18 sets ST and the gate together. -/
theorem Inv.setSound {s : State} (hs : Inv s) (b : Byte) : Inv (s.setSound b) where
  memWf := hs.memWf
  font := hs.font
  tone := by simp
  info := hs.info

@[simp] theorem countDown_zero : countDown 0#8 = 0#8 := rfl

/-- A tick drops the gate exactly when it takes ST to 0. -/
theorem Inv.tick {s : State} (hs : Inv s) : Inv (tick s) where
  memWf := hs.memWf
  font := hs.font
  tone := by
    rw [tick_toneEn, tick_st]
    split
    · rename_i h
      simp [h.2]
    · rename_i h
      rw [hs.tone]
      exact ⟨fun hst hd => h ⟨hst, hd⟩, fun hd hst => hd (by simp [hst])⟩
  info := hs.info

theorem Inv.tickIf {s : State} (hs : Inv s) (due : Bool) : Inv (tickIf due s) := by
  cases due
  · exact hs
  · exact hs.tick

theorem Inv.endCycle {s : State} (hs : Inv s) (p : Ports) : Inv (endCycle p s) :=
  (hs.tickIf _).congr rfl rfl rfl rfl rfl

theorem Inv.effect {i : Instr} {s : State} (hs : Inv s) (hr : StoresInRange i s) :
    Inv (effect i s) := by
  cases i with
  | ldStVx x => exact hs.setSound _
  | ldBVx x =>
    obtain ⟨hfont, hbounds⟩ := hr
    exact hs.storeBytes hfont (Nat.succ_le_succ hbounds)
  | ldMemVx x =>
    obtain ⟨hfont, hbounds⟩ := hr
    refine hs.storeBytes hfont ?_
    rw [State.length_regsUpTo]
    exact Nat.succ_le_succ hbounds
  | _ => exact hs.congr rfl rfl rfl rfl rfl

theorem Inv.exec {i : Instr} {s t : State} (hs : Inv s) (h : exec i s = .next t) : Inv t := by
  rcases exec_inversion h with ⟨c, n, hc, rfl⟩ | ⟨hr, p, rfl⟩
  · exact hs.takeFault hc.ne_run n
  · exact (hs.effect hr).congr rfl rfl rfl rfl rfl

theorem Inv.executeOne {s t : State} (hs : Inv s) (h : executeOne s = .next t) : Inv t := by
  rcases executeOne_inversion h with ⟨c, n, hc, rfl⟩ | ⟨i, -, hexec⟩
  · exact hs.takeFault hc n
  · exact hs.exec hexec

/-- Settles O51: each phase of a cycle keeps the invariant, and a stopped core stays as it is. -/
theorem stepKeepsInvariant : Obligations.StepKeepsInvariant := by
  unfold Obligations.StepKeepsInvariant
  intro s t hs h
  rcases step_cases h with ⟨-, rfl⟩ | ⟨-, m, hm, rfl⟩
  · exact hs
  · have hlatch : Inv (latchKeys s) := hs.congr rfl rfl rfl rfl rfl
    exact (hlatch.executeOne hm).endCycle _

/-! ### The writers of each piece of state -/

/-- A cycle without a due tick whose instruction is not FX15 leaves DT alone. -/
theorem step_dt_of_no_tick {s t : State} (h : step s = .next t) (hdue : s.ports.tickDue = false)
    (hi : ∀ x, fetchDecode s ≠ .ok (.ldDtVx x)) : t.dt = s.dt := by
  rcases step_cases h with ⟨-, rfl⟩ | ⟨-, m, hm, rfl⟩
  · rfl
  · calc (endCycle s.ports m).dt
      _ = m.dt := by simp [hdue]
      _ = (latchKeys s).dt := executeOne_keeps State.dt hm fun i hd =>
          effect_dt fun x hx => hi x (by rw [← fetchDecode_latchKeys, hd, hx])

/-- A cycle without a due tick whose instruction is not FX18 leaves ST alone. -/
theorem step_st_of_no_tick {s t : State} (h : step s = .next t) (hdue : s.ports.tickDue = false)
    (hi : ∀ x, fetchDecode s ≠ .ok (.ldStVx x)) : t.st = s.st := by
  rcases step_cases h with ⟨-, rfl⟩ | ⟨-, m, hm, rfl⟩
  · rfl
  · calc (endCycle s.ports m).st
      _ = m.st := by simp [hdue]
      _ = (latchKeys s).st := executeOne_keeps State.st hm fun i hd =>
          effect_st fun x hx => hi x (by rw [← fetchDecode_latchKeys, hd, hx])

theorem countDown_succ {b : Byte} (h : 1 ≤ b.toNat) : (countDown b).toNat + 1 = b.toNat := by
  rw [toNat_countDown]
  omega

/-- Settles O43: DT and ST follow the effect of the instruction, and a tick counts each down. -/
theorem timersHaveOnlyTheirWriters : Obligations.TimersHaveOnlyTheirWriters := by
  unfold Obligations.TimersHaveOnlyTheirWriters
  refine ⟨fun i s t h => ⟨fun hi => ?_, fun hi => ⟨?_, ?_⟩⟩, fun s t h hdue => ?_, fun s => ?_⟩
  · exact exec_keeps State.dt h (effect_dt hi)
  · exact exec_keeps State.st h (effect_st hi)
  · exact exec_keeps State.toneEn h (effect_toneEn hi)
  · exact ⟨step_dt_of_no_tick h hdue, step_st_of_no_tick h hdue⟩
  · exact ⟨fun h => by simp [h], fun h => by simp [h], countDown_succ, countDown_succ⟩

/-- Settles O44: a field that exec changes is one that the instruction's effect changes. -/
theorem specialStateHasOnlyItsWriters : Obligations.SpecialStateHasOnlyItsWriters := by
  unfold Obligations.SpecialStateHasOnlyItsWriters
  intro i s t h
  refine ⟨?_, ?_, ?_, ?_, ?_, ?_, ?_, ?_, ?_⟩
  · exact fun hne => writer_of_effect_i_ne (effect_ne_of_exec_ne State.i h hne)
  · exact fun hne => writer_of_effect_sp_ne (effect_ne_of_exec_ne State.sp h hne)
  · exact fun hne => writer_of_effect_stack_ne (effect_ne_of_exec_ne State.stack h hne)
  · exact fun hne => writer_of_effect_fb_ne (effect_ne_of_exec_ne State.fb h hne)
  · exact fun ⟨a, hne⟩ => writer_of_effect_readByte_ne
      (effect_ne_of_exec_ne (State.readByte · a) h hne)
  · exact exec_keeps State.held h (effect_held i s)
  · exact exec_keeps State.newly h (effect_newly i s)
  · exact exec_keeps State.params h (effect_params i s)
  · exact exec_keeps State.env h (effect_env i s)

/-- A register that a write changes is the register written. -/
theorem State.dest_of_reg_setReg_ne {s : State} {x r : Nibble} {b : Byte}
    (h : (s.setReg x b).reg r ≠ s.reg r) : x = r := by
  by_contra hne
  exact h (State.reg_setReg_ne s b fun e => hne e.symm)

/-- FX0A writes its destination if a key was pressed, and otherwise no register. -/
theorem dest_of_effect_ldVxK_ne {s : State} {x r : Nibble}
    (h : (effect (.ldVxK x) s).reg r ≠ s.reg r) : x = r := by
  by_cases hk : s.newly = 0
  · simp only [effect, if_pos hk] at h
    exact absurd rfl h
  · simp only [effect, if_neg hk] at h
    exact State.dest_of_reg_setReg_ne (s := s) h

/-- FX65 reaches VF only with X = 0xF. -/
theorem dest_of_effect_ldVxMem_vf_ne {s : State} {x : Nibble}
    (h : (effect (.ldVxMem x) s).reg 0xF ≠ s.reg 0xF) : x = 0xF := by
  by_contra hne
  have hx : x.toNat ≠ 15 := fun e => hne (BitVec.eq_of_toNat_eq e)
  have hlt := x.isLt
  refine h ((getElem_loadBytes s.v 0 _ 15 (by decide)).trans (dif_neg ?_))
  rw [State.length_readBytes]
  omega

/-- Settles O45: the effect changes VF by a flag, or through a destination that is VF. -/
theorem flagHasOnlyItsWriters : Obligations.FlagHasOnlyItsWriters := by
  unfold Obligations.FlagHasOnlyItsWriters
  intro i s t h hne
  have he : (effect i s).reg 0xF ≠ s.reg 0xF :=
    effect_ne_of_exec_ne (State.reg · 0xF) h hne
  cases i with
  | addImm | addReg | subReg | shr | subnReg | shl | drw | addIVx => trivial
  | ldImm | ldReg | orReg | andReg | xorReg | rnd | ldVxDt => exact State.dest_of_reg_setReg_ne he
  | ldVxK x => exact dest_of_effect_ldVxK_ne he
  | ldVxMem x => exact dest_of_effect_ldVxMem_vf_ne he
  | _ => exact he rfl

/-! ### A tone of one cycle -/

theorem executeOne_of_fetchDecode {s : State} {i : Instr} (h : fetchDecode s = .ok i) :
    executeOne s = exec i s := by
  rw [executeOne, h]

/-- FX18 where PC + 2 is an address (R166). -/
theorem exec_ldStVx_ok {s : State} (x : Nibble) (h : s.pc.toNat + 2 ≤ 0xFFF) :
    exec (.ldStVx x) s = .next { s.setSound (s.reg x) with pc := s.pc + 2 } :=
  congrArg Host.Outcome.next (finishNext_ok h _)

/-- Settles O42: phase (b) turns the tone on, the tick of phase (c) turns it off. -/
theorem tonePulseWithinOneCycle : Obligations.TonePulseWithinOneCycle := by
  unfold Obligations.TonePulseWithinOneCycle
  intro x s hrun hfetch hx hpc hdue
  have hm : executeOne (latchKeys s) =
      .next { (latchKeys s).setSound 1 with pc := s.pc + 2 } := by
    rw [executeOne_of_fetchDecode ((fetchDecode_latchKeys s).trans hfetch),
      exec_ldStVx_ok (s := latchKeys s) x hpc, State.reg_congr (latchKeys_v s), hx, latchKeys_pc]
  have hcause : s.status.cause = .run := hrun
  refine ⟨_, _, hm, rfl, rfl, step_running hrun hm, ?_, ?_, rfl⟩
  · simp [hcause, hdue, countDown]
  · simp [hcause, hdue, countDown]

/-! ### Nothing reads ST or the tone gate -/

/-- Two states that differ in ST and the tone gate only. -/
def AgreeButSound (s s' : State) : Prop :=
  ∃ n b, s' = { s with st := n, toneEn := b }

namespace AgreeButSound

variable {s s' k k' : State}

/-! The reads that both states answer alike. -/

theorem next (h : AgreeButSound s s') : s'.next = s.next := by
  obtain ⟨_, _, rfl⟩ := h
  rfl

theorem skip (h : AgreeButSound s s') : s'.skip = s.skip := by
  obtain ⟨_, _, rfl⟩ := h
  rfl

theorem reg (h : AgreeButSound s s') (x : Nibble) : s'.reg x = s.reg x := by
  obtain ⟨_, _, rfl⟩ := h
  rfl

theorem ea (h : AgreeButSound s s') (n : Nat) : s'.ea n = s.ea n := by
  obtain ⟨_, _, rfl⟩ := h
  rfl

theorem newly (h : AgreeButSound s s') : s'.newly = s.newly := by
  obtain ⟨_, _, rfl⟩ := h
  rfl

theorem keyHeld (h : AgreeButSound s s') (n : Nat) : s'.keyHeld n = s.keyHeld n := by
  obtain ⟨_, _, rfl⟩ := h
  rfl

theorem readBytes (h : AgreeButSound s s') (a n : Nat) : s'.readBytes a n = s.readBytes a n := by
  obtain ⟨m, b, rfl⟩ := h
  exact State.readBytes_congr (s := s) (t := { s with st := m, toneEn := b }) rfl rfl a n

theorem spriteCanvas (h : AgreeButSound s s') (x y : Byte) (n : Nat) :
    s'.spriteCanvas x y n = s.spriteCanvas x y n := by
  unfold State.spriteCanvas
  rw [h.ea, h.readBytes]
  obtain ⟨_, _, rfl⟩ := h
  rfl

/-! The operations that keep two such states such. -/

theorem takeFault (h : AgreeButSound s s') (c : Cause) (n : Nat) :
    AgreeButSound (takeFault c n s) (takeFault c n s') := by
  obtain ⟨m, b, rfl⟩ := h
  exact ⟨m, b, rfl⟩

theorem setPc (h : AgreeButSound s s') (p : Addr) :
    AgreeButSound { s with pc := p } { s' with pc := p } := by
  obtain ⟨m, b, rfl⟩ := h
  exact ⟨m, b, rfl⟩

theorem setReg (h : AgreeButSound s s') (x : Nibble) (b : Byte) :
    AgreeButSound (s.setReg x b) (s'.setReg x b) := by
  obtain ⟨m, c, rfl⟩ := h
  exact ⟨m, c, rfl⟩

/-- Both states take the same branch of a condition that is the same for both. -/
theorem ite {c : Prop} [Decidable c] (h : AgreeButSound s s') (hk : AgreeButSound k k') :
    AgreeButSound (if c then s else k) (if c then s' else k') := by
  split
  · exact h
  · exact hk

theorem finishAt (h : AgreeButSound s s') (hk : AgreeButSound k k') (n : Nat) :
    AgreeButSound (finishAt n s k) (finishAt n s' k') :=
  (h.takeFault _ _).ite (hk.setPc _)

theorem finishNext (h : AgreeButSound s s') (hk : AgreeButSound k k') :
    AgreeButSound (finishNext s k) (finishNext s' k') := by
  unfold Machine.finishNext
  rw [h.next]
  exact h.finishAt hk _

theorem finishSkipIf (h : AgreeButSound s s') (taken : Bool) :
    AgreeButSound (finishSkipIf taken s) (finishSkipIf taken s') := by
  unfold Machine.finishSkipIf
  rw [h.next, h.skip]
  exact h.finishAt h _

theorem checkBounds (h : AgreeButSound s s') (hk : AgreeButSound k k') (n : Nat) :
    AgreeButSound (checkBounds (s.ea n) s k) (checkBounds (s'.ea n) s' k') := by
  rw [h.ea]
  exact (h.takeFault _ _).ite hk

theorem checkFont (h : AgreeButSound s s') (hk : AgreeButSound k k') (n : Nat) :
    AgreeButSound (checkFont (s.ea n) s k) (checkFont (s'.ea n) s' k') := by
  rw [h.ea]
  exact (h.takeFault _ _).ite hk

theorem checkKey (h : AgreeButSound s s') (hk : AgreeButSound k k') (x : Nibble) :
    AgreeButSound (checkKey x s k) (checkKey x s' k') := by
  unfold Machine.checkKey
  rw [h.reg]
  exact (h.takeFault _ _).ite hk

theorem checkDigit (h : AgreeButSound s s') (hk : AgreeButSound k k') (x : Nibble) :
    AgreeButSound (checkDigit x s k) (checkDigit x s' k') := by
  unfold Machine.checkDigit
  rw [h.reg]
  exact (h.takeFault _ _).ite hk

theorem checkSprite (h : AgreeButSound s s') (hk : AgreeButSound k k') (n : Nat) :
    AgreeButSound (checkSprite n s k) (checkSprite n s' k') :=
  hk.ite (h.checkBounds hk _)

theorem pushPc {f : State → State} (h : AgreeButSound s s')
    (hf : ∀ u u', AgreeButSound u u' → AgreeButSound (f u) (f u')) :
    AgreeButSound (pushPc s f) (pushPc s' f) := by
  obtain ⟨m, b, rfl⟩ := h
  by_cases hsp : s.sp.val < stackDepth
  · simp only [Machine.pushPc, dif_pos hsp]
    exact hf _ _ ⟨m, b, rfl⟩
  · simp only [Machine.pushPc, dif_neg hsp]
    exact ⟨m, b, rfl⟩

theorem popPc {f f' : Addr → State → State} (h : AgreeButSound s s')
    (hf : ∀ a u u', AgreeButSound u u' → AgreeButSound (f a u) (f' a u')) :
    AgreeButSound (popPc s f) (popPc s' f') := by
  obtain ⟨m, b, rfl⟩ := h
  by_cases hsp : s.sp.val = 0
  · simp only [Machine.popPc, dif_pos hsp]
    exact ⟨m, b, rfl⟩
  · simp only [Machine.popPc, dif_neg hsp]
    exact hf _ _ _ ⟨m, b, rfl⟩

/-- FX18 gives ST and the gate the same values in both states; every other effect leaves them alone. -/
theorem effect (h : AgreeButSound s s') (i : Instr) : AgreeButSound (effect i s) (effect i s') := by
  have hcanvas := h.spriteCanvas
  have hbytes := h.readBytes
  obtain ⟨m, b, rfl⟩ := h
  cases i with
  | ldStVx x => exact ⟨_, _, rfl⟩
  | drw x y n =>
    simp only [Machine.effect, hcanvas]
    exact ⟨m, b, rfl⟩
  | ldVxMem x =>
    simp only [Machine.effect, hbytes]
    exact ⟨m, b, rfl⟩
  | _ => exact ⟨m, b, rfl⟩

/-- From two such states every instruction goes to two such states. -/
theorem exec (h : AgreeButSound s s') (i : Instr) :
    ∃ u u', exec i s = .next u ∧ exec i s' = .next u' ∧ AgreeButSound u u' := by
  have he := h.effect i
  cases i with
  | ret x => exact ⟨_, _, rfl, rfl, h.popPc fun a _ _ hpop => h.finishAt hpop (a.toNat + 2)⟩
  | jp nnn => exact ⟨_, _, rfl, rfl, h.setPc nnn⟩
  | call nnn => exact ⟨_, _, rfl, rfl, h.pushPc fun _ _ hpush => hpush.setPc nnn⟩
  | jpV0 nnn => exact ⟨_, _, rfl, rfl, by rw [h.reg]; exact h.finishAt h _⟩
  | seImm x nn | sneImm x nn => exact ⟨_, _, rfl, rfl, by rw [h.reg]; exact h.finishSkipIf _⟩
  | seReg x y n | sneReg x y n =>
    exact ⟨_, _, rfl, rfl, by rw [h.reg, h.reg]; exact h.finishSkipIf _⟩
  | skp x | sknp x =>
    refine ⟨_, _, rfl, rfl, h.checkKey ?_ x⟩
    rw [h.reg, h.keyHeld]
    exact h.finishSkipIf _
  | ldVxK x =>
    refine ⟨_, _, rfl, rfl, ?_⟩
    rw [h.newly]
    exact h.ite (h.finishNext (h.setReg x _))
  | ldFVx x => exact ⟨_, _, rfl, rfl, h.checkDigit (h.finishNext he) x⟩
  | ldBVx x => exact ⟨_, _, rfl, rfl, h.checkBounds (h.checkFont (h.finishNext he) _) _⟩
  | ldMemVx x => exact ⟨_, _, rfl, rfl, h.checkBounds (h.checkFont (h.finishNext he) _) _⟩
  | ldVxMem x => exact ⟨_, _, rfl, rfl, h.checkBounds (h.finishNext he) _⟩
  | drw x y n => exact ⟨_, _, rfl, rfl, h.checkSprite (h.finishNext he) _⟩
  | _ => exact ⟨_, _, rfl, rfl, h.finishNext he⟩

end AgreeButSound

/-- Settles O46: exec answers from both states, and the answers agree but for ST and the gate. -/
theorem soundIsNeverRead : Obligations.SoundIsNeverRead := by
  unfold Obligations.SoundIsNeverRead
  intro i s t n b h
  have hs : AgreeButSound s { s with st := n, toneEn := b } := ⟨n, b, rfl⟩
  obtain ⟨u, u', hu, hu', m, c, rfl⟩ := hs.exec i
  obtain rfl : u = t := Host.Outcome.next.inj (hu.symm.trans h)
  exact ⟨_, hu', rfl⟩

end Sys2Proof.Machine

/-! PROOFS. The memory rules of 20_memory.md: a store leaves the font region alone (R47), and the next
fetch sees every stored byte (R53). -/

namespace Sys2Proof.Machine

/-! ### The font region -/

/-- A store that starts above the font region leaves that region alone. -/
theorem State.readByte_storeBytes_font {s : State} {lo a : Nat} (bs : List Byte) (hlo : 0x050 ≤ lo)
    (ha : a < 0x050) : (s.storeBytes lo bs).readByte a = s.readByte a := by
  rw [State.readByte_storeBytes, dif_neg (by omega)]

/-- The font check of FX33 and FX55 keeps their effect off the font region; no other effect stores. -/
theorem effect_readByte_font {i : Instr} {s : State} {a : Nat} (hr : StoresInRange i s)
    (ha : a < 0x050) : (effect i s).readByte a = s.readByte a := by
  cases i with
  | ldBVx x =>
    obtain ⟨hfont, -⟩ := hr
    exact State.readByte_storeBytes_font _ hfont ha
  | ldMemVx x =>
    obtain ⟨hfont, -⟩ := hr
    exact State.readByte_storeBytes_font _ hfont ha
  | _ => rfl

/-- Settles O47: a fault stores nothing, and an effect stores above the font region only. -/
theorem fontRegionIsReadOnly : Obligations.FontRegionIsReadOnly := by
  unfold Obligations.FontRegionIsReadOnly
  intro i s t a h ha
  rcases exec_inversion h with ⟨c, n, -, rfl⟩ | ⟨hr, p, rfl⟩
  · rfl
  · exact effect_readByte_font hr ha

/-! ### What the next fetch sees -/

/-- An instruction that leaves the core running took no fault: it had its effect and set PC. -/
theorem exec_running {i : Instr} {s t : State} (h : exec i s = .next t) (ht : t.Running) :
    StoresInRange i s ∧ ∃ p, t = { effect i s with pc := p } := by
  rcases exec_inversion h with ⟨c, n, hc, rfl⟩ | hdone
  · exact absurd ht hc.ne_run
  · exact hdone

/-- Such an instruction leaves in memory what its effect puts there. -/
theorem exec_running_readByte {i : Instr} {s t : State} (h : exec i s = .next t) (ht : t.Running)
    (b : Nat) : t.readByte b = (effect i s).readByte b := by
  obtain ⟨-, p, rfl⟩ := exec_running h ht
  rfl

/-- `byteAfterStore` is what memory holds after the store of the bytes f 0, f 1, ... -/
theorem State.readByte_storeBytes_eq_byteAfterStore (s : State) (lo : Nat) {n : Nat} {bs : List Byte}
    {f : Nat → Byte} (hlen : bs.length = n) (hf : ∀ k (hk : k < bs.length), bs[k] = f k) (b : Nat) :
    (s.storeBytes lo bs).readByte b = s.byteAfterStore lo n f b := by
  subst hlen
  rw [State.readByte_storeBytes, State.byteAfterStore]
  by_cases hb : lo ≤ b ∧ b < lo + bs.length
  · rw [if_pos hb, dif_pos (by omega), hf]
  · rw [if_neg hb, dif_neg (by omega)]

/-- Where PC has a second byte, fetch and decode is the decoding of the word at PC (R82, R83). -/
theorem fetchDecode_ok {s : State} {i : Instr} (hpc : s.pc.toNat + 1 ≤ 0xFFF)
    (hi : decode s.fetchWord = .ok i) : fetchDecode s = .ok i := by
  have hin : ¬maxAddr < s.pc.toNat + 1 := Nat.not_lt.mpr hpc
  rw [fetchDecode, if_neg hin, hi]

/-- A fetch is determined by the bytes memory holds: the word at a, decoded. -/
theorem fetchesWord_of_readByte {t : State} {a : Addr} {g : Nat → Byte} (ha : a.toNat + 1 ≤ 0xFFF)
    (hg : ∀ b, t.readByte b = g b) : FetchesWord t a g := by
  have hword : ({ t with pc := a } : State).fetchWord = g a.toNat ++ g (a.toNat + 1) := by
    rw [← hg, ← hg]
    rfl
  exact ⟨hword, fun i hi => fetchDecode_ok ha (hword ▸ hi)⟩

/-- The digits FX33 stores are those of the decimal representation, which is unique. -/
theorem bcdDigits_eq {b : Byte} {h d o : Nat} (hd : d < 10) (ho : o < 10)
    (hb : b.toNat = 100 * h + 10 * d + o) :
    bcdDigits b = [BitVec.ofNat 8 h, BitVec.ofNat 8 d, BitVec.ofNat 8 o] := by
  have hundreds : b.toNat / 100 = h := by omega
  have tens : b.toNat / 10 % 10 = d := by omega
  have ones : b.toNat % 10 = o := by omega
  rw [bcdDigits, hundreds, tens, ones]

/-- The three stored digits, by their offset from I. -/
theorem getElem_bcdDigits {b : Byte} {h d o : Nat} (hd : d < 10) (ho : o < 10)
    (hb : b.toNat = 100 * h + 10 * d + o) (k : Nat) (hk : k < (bcdDigits b).length) :
    (bcdDigits b)[k] =
      if k = 0 then BitVec.ofNat 8 h else if k = 1 then BitVec.ofNat 8 d else BitVec.ofNat 8 o := by
  simp only [bcdDigits_eq hd ho hb] at hk ⊢
  match k, hk with
  | 0, _ => rfl
  | 1, _ => rfl
  | 2, _ => rfl

/-- Settles O50: after FX55 or FX33 memory holds the stored bytes over the old ones, and a fetch takes
its two bytes from there, on either side of an end of the stored range. -/
theorem storesAreSeenByTheNextFetch : Obligations.StoresAreSeenByTheNextFetch := by
  unfold Obligations.StoresAreSeenByTheNextFetch
  intro x s t a _ ht ha
  refine ⟨fun hexec => fetchesWord_of_readByte ha fun b => ?_,
    fun hexec h d o _ hd ho hx => fetchesWord_of_readByte ha fun b => ?_⟩
  · rw [exec_running_readByte hexec ht]
    exact s.readByte_storeBytes_eq_byteAfterStore _ (s.length_regsUpTo x) (s.getElem_regsUpTo x) b
  · rw [exec_running_readByte hexec ht]
    exact s.readByte_storeBytes_eq_byteAfterStore _ rfl (getElem_bcdDigits hd ho hx) b

end Sys2Proof.Machine

/-! PROOFS. The encoding rules of 30_encoding.md: the encoder and the decoder undo each other (R61,
R63, R64), and the dispatch of R63 accepts the words that the table of R64 lists and no others (R65). -/

namespace Sys2Proof

/-! ### The decoder on the encoder's words -/

/-- The one operand that is checked: a SYS whose NNN ends in neither selector of class 0. -/
theorem sysFieldOk_iff (nnn : Addr) :
    sysFieldOk nnn = true ↔ nnn.setWidth 8 ≠ 0xE0#8 ∧ nnn.setWidth 8 ≠ 0xEE#8 := by
  rw [sysFieldOk, Bool.and_eq_true, bne_iff_ne, bne_iff_ne]

theorem decodeClass0_sys {w : Word} (h : sysFieldOk (fieldNNN w) = true) :
    decodeClass0 w = .sys (fieldNNN w) := by
  obtain ⟨hcls, hret⟩ := (sysFieldOk_iff _).mp h
  rw [setWidth_fieldNNN] at hcls hret
  rw [decodeClass0, if_neg hcls, if_neg hret]

/-- The fields of an instruction's word are its operands, so the dispatch finds it again; for SYS the
check on NNN keeps its word out of the rows of CLS and RET. -/
theorem decode_encode {i : Instr} (hi : i.wellFormed = true) : decode (encode i) = .ok i := by
  cases i with
  | sys nnn =>
    have hnnn : sysFieldOk nnn = true := hi
    simp [encode, decode, decodeClass0_sys, hnnn]
  | cls x | ret x => simp [encode, decode, decodeClass0]
  | jp nnn | call nnn | ldI nnn | jpV0 nnn => simp [encode, decode]
  | seImm x nn | sneImm x nn | ldImm x nn | addImm x nn | rnd x nn => simp [encode, decode]
  | seReg x y n | sneReg x y n | drw x y n => simp [encode, decode]
  | ldReg x y | orReg x y | andReg x y | xorReg x y | addReg x y | subReg x y | shr x y | subnReg x y
  | shl x y => simp [encode, decode, decodeClass8]
  | skp x | sknp x => simp [encode, decode, decodeClassE]
  | ldVxDt x | ldVxK x | ldDtVx x | ldStVx x | addIVx x | ldFVx x | ldBVx x | ldMemVx x
  | ldVxMem x => simp [encode, decode, decodeClassF]

/-- Settles O56: on words by `decode_encode`, on bytes because the two bytes make up the word. -/
theorem decodeOfEncode : Obligations.DecodeOfEncode := by
  unfold Obligations.DecodeOfEncode
  intro i hi
  have hword := decode_encode hi
  refine ⟨hword, fun rest => ?_⟩
  rw [decodeBytes_encodeBytes, hword]

/-! ### The encoder on the decoder's instructions -/

section
variable {w : Word} {c n : Nibble} {nn : Byte}

/-- A word from its class and its unexamined rest, one lemma per packing. -/
theorem packNNN_eq_of_class (hc : (fieldClass w).toNat = c.toNat) : packNNN c (fieldNNN w) = w := by
  rw [← BitVec.eq_of_toNat_eq hc, packNNN_fields]

theorem packXNN_eq_of_class (hc : (fieldClass w).toNat = c.toNat) :
    packXNN c (fieldX w) (fieldNN w) = w := by
  rw [← BitVec.eq_of_toNat_eq hc, packXNN_fields]

theorem packNibbles_eq_of_class (hc : (fieldClass w).toNat = c.toNat) :
    packNibbles c (fieldX w) (fieldY w) (fieldN w) = w := by
  rw [← BitVec.eq_of_toNat_eq hc, packNibbles_fields]

/-- As above for the words whose last field is a selector. -/
theorem packXNN_eq_of_selector (hc : (fieldClass w).toNat = c.toNat)
    (hnn : (fieldNN w).toNat = nn.toNat) : packXNN c (fieldX w) nn = w := by
  rw [← BitVec.eq_of_toNat_eq hnn, packXNN_eq_of_class hc]

theorem packNibbles_eq_of_selector (hc : (fieldClass w).toNat = c.toNat)
    (hn : (fieldN w).toNat = n.toNat) : packNibbles c (fieldX w) (fieldY w) n = w := by
  rw [← BitVec.eq_of_toNat_eq hn, packNibbles_eq_of_class hc]

end

/-- A decoder's answer to w is faithful: an instruction it gives is well formed and encodes to w. -/
def Faithful (w : Word) (answer : Except Illegal Instr) : Prop :=
  ∀ i, answer = .ok i → i.wellFormed = true ∧ encode i = w

theorem Faithful.ok {w : Word} {i : Instr} (hi : i.wellFormed = true) (hw : encode i = w) :
    Faithful w (.ok i) := by
  rintro _ ⟨⟩
  exact ⟨hi, hw⟩

theorem Faithful.error (w : Word) (e : Illegal) : Faithful w (.error e) := nofun

/-! One lemma per dispatch on a sub-selector: an arm fixes the selector and keeps the other fields. -/

theorem decodeClass0_faithful {w : Word} (hc : (fieldClass w).toNat = 0x0) :
    Faithful w (.ok (decodeClass0 w)) := by
  unfold decodeClass0
  split_ifs with hcls hret
  · exact .ok rfl (packXNN_eq_of_selector hc (congrArg _ hcls))
  · exact .ok rfl (packXNN_eq_of_selector hc (congrArg _ hret))
  · have hsys := (sysFieldOk_iff (fieldNNN w)).mpr (by rw [setWidth_fieldNNN]; exact ⟨hcls, hret⟩)
    exact .ok hsys (packNNN_eq_of_class hc)

theorem decodeClass8_faithful {w : Word} (hc : (fieldClass w).toNat = 0x8) :
    Faithful w (decodeClass8 w) := by
  unfold decodeClass8
  split
  case h_10 => exact .error w _
  all_goals exact .ok rfl (packNibbles_eq_of_selector hc ‹_›)

theorem decodeClassE_faithful {w : Word} (hc : (fieldClass w).toNat = 0xE) :
    Faithful w (decodeClassE w) := by
  unfold decodeClassE
  split
  case h_3 => exact .error w _
  all_goals exact .ok rfl (packXNN_eq_of_selector hc ‹_›)

theorem decodeClassF_faithful {w : Word} (hc : (fieldClass w).toNat = 0xF) :
    Faithful w (decodeClassF w) := by
  unfold decodeClassF
  split
  case h_10 => exact .error w _
  all_goals exact .ok rfl (packXNN_eq_of_selector hc ‹_›)

/-- Each arm keeps its fields and fixes its class; the last one is class F, what the others leave. -/
theorem decode_faithful (w : Word) : Faithful w (decode w) := by
  unfold decode
  split <;> rename_i hc
  · exact decodeClass0_faithful hc
  · exact .ok rfl (packNNN_eq_of_class hc)
  · exact .ok rfl (packNNN_eq_of_class hc)
  · exact .ok rfl (packXNN_eq_of_class hc)
  · exact .ok rfl (packXNN_eq_of_class hc)
  · exact .ok rfl (packNibbles_eq_of_class hc)
  · exact .ok rfl (packXNN_eq_of_class hc)
  · exact .ok rfl (packXNN_eq_of_class hc)
  · exact decodeClass8_faithful hc
  · exact .ok rfl (packNibbles_eq_of_class hc)
  · exact .ok rfl (packNNN_eq_of_class hc)
  · exact .ok rfl (packNNN_eq_of_class hc)
  · exact .ok rfl (packXNN_eq_of_class hc)
  · exact .ok rfl (packNibbles_eq_of_class hc)
  · exact decodeClassE_faithful hc
  · have := (fieldClass w).isLt
    simp only [imp_false] at *
    exact decodeClassF_faithful (by omega)

/-- Settles O57: what `decode_faithful` says of every answer. -/
theorem encodeOfDecode : Obligations.EncodeOfDecode := decode_faithful

/-! ### The illegal words -/

/-- The sub-selectors N of class 8 that rule R64 does not list (R65). -/
abbrev aluUnlisted : List Nat := [0x8, 0x9, 0xA, 0xB, 0xC, 0xD, 0xF]
/-- The sub-selectors NN of class E that rule R64 lists. -/
abbrev keySelectors : List Nat := [0x9E, 0xA1]
/-- The sub-selectors NN of class F that rule R64 lists. -/
abbrev miscSelectors : List Nat := [0x07, 0x0A, 0x15, 0x18, 0x1E, 0x29, 0x33, 0x55, 0x65]

section
variable (w : Word)

/-! Each dispatch rejects in its last arm, where the selector is none of those of the arms before. -/

theorem decodeClass8_error_iff : (∃ e, decodeClass8 w = .error e) ↔
    (fieldN w).toNat ∈ aluUnlisted := by
  unfold decodeClass8
  split
  case h_10 =>
    have := (fieldN w).isLt
    simp only [imp_false, Except.error.injEq, exists_eq', true_iff, List.mem_cons,
      List.not_mem_nil, or_false] at *
    omega
  all_goals simp [*]

theorem decodeClassE_error_iff : (∃ e, decodeClassE w = .error e) ↔
    (fieldNN w).toNat ∉ keySelectors := by
  unfold decodeClassE
  split <;> simp_all

theorem decodeClassF_error_iff : (∃ e, decodeClassF w = .error e) ↔
    (fieldNN w).toNat ∉ miscSelectors := by
  unfold decodeClassF
  split <;> simp_all

/-- Only the dispatches on a sub-selector, those of classes 8, E and F, reject a word (R65). -/
theorem decode_error_iff : (∃ e, decode w = .error e) ↔
    ((fieldClass w).toNat = 0x8 ∧ (fieldN w).toNat ∈ aluUnlisted) ∨
    ((fieldClass w).toNat = 0xE ∧ (fieldNN w).toNat ∉ keySelectors) ∨
    ((fieldClass w).toNat = 0xF ∧ (fieldNN w).toNat ∉ miscSelectors) := by
  rw [← decodeClass8_error_iff, ← decodeClassE_error_iff, ← decodeClassF_error_iff]
  unfold decode
  split
  case h_16 =>
    have := (fieldClass w).isLt
    simp only [imp_false] at *
    have hF : (fieldClass w).toNat = 0xF := by omega
    simp [hF]
  all_goals simp [*]

end

/-- Settles O59: `decode_error_iff`, with the fields as numbers. -/
theorem illegalWordsAreExactly : Obligations.IllegalWordsAreExactly := by
  unfold Obligations.IllegalWordsAreExactly
  intro w
  rw [decode_error_iff, toNat_fieldClass, toNat_fieldN, toNat_fieldNN]

/-! ### The first row that a word selects -/

section
variable {w : Word} {r : OpcodeRow}

theorem OpcodeRow.selects_iff : r.selects w = true ↔ w &&& r.mask = r.pattern := beq_iff_eq

/-- Bits that the row's mask covers are, in the words the row selects, those of its pattern. -/
theorem OpcodeRow.extractLsb'_of_selects (h : r.selects w = true) {k len : Nat}
    (hm : r.mask.extractLsb' k len = BitVec.allOnes len) :
    w.extractLsb' k len = r.pattern.extractLsb' k len := by
  rw [← OpcodeRow.selects_iff.mp h, BitVec.extractLsb'_and, hm, BitVec.and_allOnes]

theorem OpcodeRow.fieldClass_of_selects (h : r.selects w = true) (hm : fieldClass r.mask = 0xF) :
    fieldClass w = fieldClass r.pattern := r.extractLsb'_of_selects h hm

theorem OpcodeRow.fieldN_of_selects (h : r.selects w = true) (hm : fieldN r.mask = 0xF) :
    fieldN w = fieldN r.pattern := r.extractLsb'_of_selects h hm

theorem OpcodeRow.fieldNN_of_selects (h : r.selects w = true) (hm : fieldNN r.mask = 0xFF) :
    fieldNN w = fieldNN r.pattern := r.extractLsb'_of_selects h hm

/-- The rows of classes 8, E and F examine the sub-selector and list legal ones only. -/
theorem opcodeTable_class8 : ∀ r ∈ opcodeTable, (fieldClass r.pattern).toNat = 0x8 →
    fieldN r.mask = 0xF ∧ (fieldN r.pattern).toNat ∉ aluUnlisted := by
  decide

theorem opcodeTable_classE : ∀ r ∈ opcodeTable, (fieldClass r.pattern).toNat = 0xE →
    fieldNN r.mask = 0xFF ∧ (fieldNN r.pattern).toNat ∈ keySelectors := by
  decide

theorem opcodeTable_classF : ∀ r ∈ opcodeTable, (fieldClass r.pattern).toNat = 0xF →
    fieldNN r.mask = 0xFF ∧ (fieldNN r.pattern).toNat ∈ miscSelectors := by
  decide

/-- Every row examines the class. -/
theorem opcodeTable_mask_class : ∀ r ∈ opcodeTable, fieldClass r.mask = 0xF := by decide

/-- What makes a word illegal is a selector its class does not list, so no row of its class has it. -/
theorem not_selects_of_decode_error (hr : r ∈ opcodeTable) (he : ∃ e, decode w = .error e) :
    ¬r.selects w = true := by
  intro h
  have hc := OpcodeRow.fieldClass_of_selects h (opcodeTable_mask_class r hr)
  rw [decode_error_iff, hc] at he
  rcases he with ⟨hcl, hn⟩ | ⟨hcl, hnn⟩ | ⟨hcl, hnn⟩
  · obtain ⟨hm, hlegal⟩ := opcodeTable_class8 r hr hcl
    exact hlegal (OpcodeRow.fieldN_of_selects h hm ▸ hn)
  · obtain ⟨hm, hlegal⟩ := opcodeTable_classE r hr hcl
    exact hnn (OpcodeRow.fieldNN_of_selects h hm ▸ hlegal)
  · obtain ⟨hm, hlegal⟩ := opcodeTable_classF r hr hcl
    exact hnn (OpcodeRow.fieldNN_of_selects h hm ▸ hlegal)

theorem firstRow_of_decode_error (he : ∃ e, decode w = .error e) : firstRow w = none := by
  rw [firstRow, Option.map_eq_none_iff, List.find?_eq_none]
  exact fun r hr => not_selects_of_decode_error hr he

end

/-- A row before r selects some word that r selects too only where r is the row of SYS and the earlier
row one of CLS and RET: what the order of the table is for. -/
abbrev OverlapsOnlySys (earlier r : OpcodeRow) : Prop :=
  earlier.pattern &&& r.mask = r.pattern &&& earlier.mask →
    r.number = 3 ∧ fieldNN earlier.mask = 0xFF ∧ fieldNN earlier.pattern ∈ [0xE0, 0xEE]

theorem opcodeTable_pairwise : opcodeTable.Pairwise OverlapsOnlySys := by decide

/-- Two rows that select one word agree where both masks look. -/
theorem OpcodeRow.overlap_of_selects {w : Word} {r r' : OpcodeRow} (h : r.selects w = true)
    (h' : r'.selects w = true) : r.pattern &&& r'.mask = r'.pattern &&& r.mask := by
  rw [← OpcodeRow.selects_iff.mp h, ← OpcodeRow.selects_iff.mp h', BitVec.and_assoc,
    BitVec.and_assoc, BitVec.and_comm r.mask]

/-- In a list ordered by R, an element that passes the test is the first to pass it, or some earlier
one passes it. -/
theorem find?_eq_some_or_earlier {α : Type} {R : α → α → Prop} {p : α → Bool} {l : List α}
    (hl : l.Pairwise R) {b : α} (hb : b ∈ l) (hp : p b = true) :
    l.find? p = some b ∨ ∃ a ∈ l, p a = true ∧ R a b := by
  induction hl with
  | nil => cases hb
  | @cons a l hab _ ih =>
    rcases List.mem_cons.mp hb with rfl | hbl
    · exact .inl (List.find?_cons_of_pos hp)
    · by_cases hpa : p a = true
      · exact .inr ⟨a, List.mem_cons_self, hpa, hab b hbl⟩
      · rw [List.find?_cons_of_neg hpa]
        exact (ih hbl).imp_right fun ⟨a', ha', h⟩ => ⟨a', List.mem_cons_of_mem a ha', h⟩

theorem Instr.eq_sys_of_rowNumber {i : Instr} (h : i.rowNumber = 3) : ∃ nnn, i = .sys nnn := by
  cases i with
  | sys nnn => exact ⟨nnn, rfl⟩
  | _ => nomatch h

/-- The row that carries an instruction's number selects its word, as it does for each constructor. -/
theorem matchesRow : (i : Instr) → Laws.MatchesRow.Statement i
  | .cls x => Laws.MatchesRow.cls x
  | .ret x => Laws.MatchesRow.ret x
  | .sys nnn => Laws.MatchesRow.sys nnn
  | .jp nnn => Laws.MatchesRow.jp nnn
  | .call nnn => Laws.MatchesRow.call nnn
  | .seImm x nn => Laws.MatchesRow.seImm x nn
  | .sneImm x nn => Laws.MatchesRow.sneImm x nn
  | .seReg x y n => Laws.MatchesRow.seReg x y n
  | .ldImm x nn => Laws.MatchesRow.ldImm x nn
  | .addImm x nn => Laws.MatchesRow.addImm x nn
  | .ldReg x y => Laws.MatchesRow.ldReg x y
  | .orReg x y => Laws.MatchesRow.orReg x y
  | .andReg x y => Laws.MatchesRow.andReg x y
  | .xorReg x y => Laws.MatchesRow.xorReg x y
  | .addReg x y => Laws.MatchesRow.addReg x y
  | .subReg x y => Laws.MatchesRow.subReg x y
  | .shr x y => Laws.MatchesRow.shr x y
  | .subnReg x y => Laws.MatchesRow.subnReg x y
  | .shl x y => Laws.MatchesRow.shl x y
  | .sneReg x y n => Laws.MatchesRow.sneReg x y n
  | .ldI nnn => Laws.MatchesRow.ldI nnn
  | .jpV0 nnn => Laws.MatchesRow.jpV0 nnn
  | .rnd x nn => Laws.MatchesRow.rnd x nn
  | .drw x y n => Laws.MatchesRow.drw x y n
  | .skp x => Laws.MatchesRow.skp x
  | .sknp x => Laws.MatchesRow.sknp x
  | .ldVxDt x => Laws.MatchesRow.ldVxDt x
  | .ldVxK x => Laws.MatchesRow.ldVxK x
  | .ldDtVx x => Laws.MatchesRow.ldDtVx x
  | .ldStVx x => Laws.MatchesRow.ldStVx x
  | .addIVx x => Laws.MatchesRow.addIVx x
  | .ldFVx x => Laws.MatchesRow.ldFVx x
  | .ldBVx x => Laws.MatchesRow.ldBVx x
  | .ldMemVx x => Laws.MatchesRow.ldMemVx x
  | .ldVxMem x => Laws.MatchesRow.ldVxMem x

/-- No row before the instruction's own selects its word: only at SYS could one, and there the check on
NNN excludes it. -/
theorem firstRow_encode {i : Instr} (hi : i.wellFormed = true) :
    firstRow (encode i) = some i.rowNumber := by
  obtain ⟨r, hr, hnum, hsel⟩ := matchesRow i
  rcases find?_eq_some_or_earlier (p := fun r => r.selects (encode i)) opcodeTable_pairwise hr
    hsel with hfirst | ⟨a, -, hasel, hoverlap⟩
  · rw [firstRow, hfirst, Option.map_some, hnum]
  · obtain ⟨hsys, hmask, hnn⟩ := hoverlap (OpcodeRow.overlap_of_selects hasel hsel)
    obtain ⟨nnn, rfl⟩ := Instr.eq_sys_of_rowNumber (hnum.symm.trans hsys)
    obtain ⟨hcls, hret⟩ := (sysFieldOk_iff nnn).mp hi
    rw [← OpcodeRow.fieldNN_of_selects hasel hmask, encode, fieldNN_packNNN] at hnn
    simp [hcls, hret] at hnn

/-- Settles O58: a legal word is the encoding of its instruction, a well-formed one (O57). -/
theorem dispatchAgreesWithOpcodeTable : Obligations.DispatchAgreesWithOpcodeTable := by
  unfold Obligations.DispatchAgreesWithOpcodeTable
  refine fun w => ⟨fun i h => ?_, firstRow_of_decode_error⟩
  obtain ⟨hi, rfl⟩ := decode_faithful w i h
  exact firstRow_encode hi

/-- Settles O60: each word is decoded. -/
theorem sampleWordsDecode : Obligations.SampleWordsDecode := by
  unfold Obligations.SampleWordsDecode
  decide

end Sys2Proof

/-! PROOFS. The rules of 40_cycle_and_fetch.md: the composition of a cycle's phases (R80), the faults of
fetch and decode (R82, R83), and the stopped core, which only reset leaves (R87, R210). -/

namespace Sys2Proof.Machine

/-! ### The stopped core -/

/-- No run leaves a stopped state, whatever its length and its inputs. -/
theorem Reaches.eq_of_stopped {s t : State} (hs : ¬s.Running) (h : Reaches s t) : t = s := by
  induction h with
  | refl => rfl
  | cycle _ last ih =>
    subst ih
    exact Host.Outcome.next.inj (last.symm.trans (step_stopped hs))

/-- Reset takes LOAD_SIZE or stores the image, by the image's length (R211). -/
theorem resetWith_running_iff (p : Params) (image : List Byte) :
    (resetWith p image).Running ↔ image.length ≤ 3584 := by
  by_cases h : image.length ≤ 3584
  · have hfits : ¬progMax < image.length := Nat.not_lt.mpr h
    rw [resetWith, if_neg hfits]
    exact iff_of_true rfl h
  · have hlong : progMax < image.length := Nat.lt_of_not_le h
    rw [resetWith, if_pos hlong]
    exact iff_of_false nofun h

/-- Settles O35: by induction on the run, and because Running does not look at the samples to come. -/
theorem stoppedCoreNeverChanges : Obligations.StoppedCoreNeverChanges := by
  unfold Obligations.StoppedCoreNeverChanges
  refine ⟨fun s t hs h => h.eq_of_stopped hs, fun s image => ⟨rfl, ?_⟩⟩
  exact resetWith_running_iff s.params image

/-! ### The composition of a cycle -/

theorem step_next (s : State) : ∃ t, step s = .next t := by
  by_cases hrun : s.Running
  · obtain ⟨m, hm⟩ := executeOne_next (latchKeys s)
    exact ⟨_, step_running hrun hm⟩
  · exact ⟨s, step_stopped hrun⟩

/-- A cycle whose fetch and decode succeed runs the instruction on the latched state. -/
theorem step_of_exec {s t : State} {i : Instr} (hrun : s.Running) (hi : fetchDecode s = .ok i)
    (ht : exec i (latchKeys s) = .next t) : step s = .next (endCycle s.ports t) :=
  step_running hrun ((executeOne_of_fetchDecode ((fetchDecode_latchKeys s).trans hi)).trans ht)

/-- Settles O33: a fault skips the tick, and without a fault the tick is taken if it is due. -/
theorem stepRunsDecodedInstruction : Obligations.StepRunsDecodedInstruction := by
  unfold Obligations.StepRunsDecodedInstruction
  refine fun s => ⟨step_next s, step_stopped, ?_⟩
  rintro i _ t hrun rfl hpc hdecode hexec
  have hstep : step s = .next (endCycle s.ports t) :=
    step_of_exec hrun (fetchDecode_ok hpc hdecode) hexec
  refine ⟨fun ht => ?_, fun ht hdue => ?_, fun ht hdue => ?_⟩
  · rw [hstep, endCycle_stopped _ ht]
  · rw [hstep, endCycle_running _ ht, hdue, tickIf_false]
  · rw [hstep, endCycle_running _ ht, hdue, tickIf_true]

/-! ### The faults of fetch and decode -/

/-- A fetch at the last address has no second byte (R82). -/
theorem executeOne_fetchBounds {s : State} (hpc : s.pc = 0xFFF) :
    executeOne s = .next (takeFault .fetchBounds 0xFFF s) := by
  rcases executeOne_cases s with ⟨-, hfault⟩ | ⟨hin, -⟩ | ⟨hin, -⟩
  · exact hfault
  · exact absurd hin (by rw [hpc]; decide)
  · exact absurd hin (by rw [hpc]; decide)

/-- An illegal word is DECODE (R83). -/
theorem executeOne_illegal {s : State} {e : Illegal} (hpc : s.pc.toNat + 1 ≤ 0xFFF)
    (he : decode s.fetchWord = .error e) :
    executeOne s = .next (takeFault .decode (decodeInfo s.fetchWord s.pc) s) := by
  rcases executeOne_cases s with ⟨hlast, -⟩ | ⟨-, -, -, hfault⟩ | ⟨-, i, hi, -⟩
  · exact absurd hpc (by rw [hlast]; decide)
  · exact hfault
  · exact nomatch he.symm.trans hi

/-- The information word of DECODE by its parts (R171). -/
theorem decodeInfo_fetchWord (s : State) :
    decodeInfo s.fetchWord s.pc = (s.readByte s.pc.toNat).toNat * 2 ^ 24 +
      (s.readByte (s.pc.toNat + 1)).toNat * 2 ^ 16 + s.pc.toNat := by
  rw [decodeInfo, State.fetchWord, toNat_wordOfBytes]
  omega

/-- A cycle whose phase (b) takes a fault ends with that fault on the latched state, without a tick. -/
theorem step_of_fault {s : State} {c : Cause} {n : Nat} (hrun : s.Running) (hc : c ≠ .run)
    (hm : executeOne (latchKeys s) = .next (takeFault c n (latchKeys s))) :
    step s = .next (consumeSample (takeFault c n (latchKeys s))) := by
  have hstopped : ¬(takeFault c n (latchKeys s)).Running := hc
  rw [step_running hrun hm, endCycle_stopped _ hstopped]

/-- Settles O34: what is fetched does not depend on the key latch, and either fault ends the cycle. -/
theorem fetchAndDecodeFaults : Obligations.FetchAndDecodeFaults := by
  unfold Obligations.FetchAndDecodeFaults
  rintro s _ hrun rfl
  refine ⟨fun hpc => ?_, fun e hpc he => ?_⟩
  · exact step_of_fault hrun (by decide) (executeOne_fetchBounds (s := latchKeys s) hpc)
  · rw [← decodeInfo_fetchWord]
    exact step_of_fault hrun (by decide) (executeOne_illegal (s := latchKeys s) hpc he)

end Sys2Proof.Machine

/-! PROOFS. The control-flow rules of 41_flow_control.md: the words decode to their instructions, and SYS,
RET, JP, CALL, the four register skips and JP V0 move PC as the rules say (R100 to R108). -/

namespace Sys2Proof.Machine

/-! ### How an instruction that ends in a checked advance answers -/

section
variable {i : Instr} {s s' t : State} {c : Cause} {n k : Nat} {a : Addr} {p : Prop} {b : Bool}

/-- An instruction that took a fault has stopped the core. -/
theorem FaultsWith.not_running (hf : FaultsWith i s c n) (hc : c ≠ .run) (h : exec i s = .next t) :
    ¬t.Running := by
  obtain rfl := Host.Outcome.next.inj (hf.symm.trans h)
  exact hc

theorem faultsWith_of_finishAt (h : exec i s = .next (finishAt n s s')) (hn : 0xFFF < n) :
    FaultsWith i s .pcRange n :=
  h.trans (congrArg _ (finishAt_range hn s s'))

theorem exec_of_finishAt (h : exec i s = .next (finishAt n s s')) (hn : n ≤ 0xFFF) :
    exec i s = .next { s' with pc := BitVec.ofNat 12 n } :=
  h.trans (congrArg _ (finishAt_ok hn s s'))

/-- An advance by k from the address a does not wrap. -/
theorem exec_of_finishAt_add (h : exec i s = .next (finishAt (a.toNat + k) s s'))
    (hn : a.toNat + k ≤ 0xFFF) : exec i s = .next { s' with pc := a + BitVec.ofNat 12 k } := by
  rw [exec_of_finishAt h hn, pc_add_ofNat]

/-- The default advance: the writes with PC + 2, or PC_RANGE (R84). -/
theorem orPcRange_of_finishNext (h : exec i s = .next (finishNext s s'))
    (hp : exec i s = .next { s' with pc := s.pc + 2 } → p) : OrPcRange i s p :=
  ⟨fun hpc => hp (exec_of_finishAt_add h hpc), faultsWith_of_finishAt h⟩

/-- A skip instruction skips on its condition: a skip is the checked advance by 4, no skip the one by 2. -/
theorem skipsExactlyIf_of_finishSkipIf (h : exec i s = .next (finishSkipIf b s)) (hb : b = true ↔ p) :
    SkipsExactlyIf i s p := by
  cases b with
  | true =>
    have hp : p := hb.mp rfl
    exact ⟨fun _ => exec_of_finishAt_add h, fun _ => faultsWith_of_finishAt h,
      fun hn => absurd hp hn, fun hn => absurd hp hn⟩
  | false =>
    have hn : ¬p := fun hp => Bool.false_ne_true (hb.mpr hp)
    exact ⟨fun hp => absurd hp hn, fun hp => absurd hp hn,
      fun _ => exec_of_finishAt_add h, fun _ => faultsWith_of_finishAt h⟩

end

/-! ### The call stack: CALL and RET -/

/-- CALL with room on the stack (R103, R17). -/
theorem exec_call_room {s : State} {k : Fin 16} (nnn : Addr) (hk : s.sp.val = k.val) :
    exec (.call nnn) s =
      .next { s with stack := s.stack.set k.val s.pc k.isLt, sp := k.succ, pc := nnn } :=
  congrArg Host.Outcome.next (pushPc_room k hk _)

/-- CALL with 16 addresses on the stack (D6). -/
theorem faultsWith_call_full {s : State} (nnn : Addr) (h : s.sp.val = 16) :
    FaultsWith (.call nnn) s .stackOverflow s.pc.toNat :=
  congrArg Host.Outcome.next (pushPc_full h _)

/-- RET with an empty stack (D6). -/
theorem faultsWith_ret_empty {s : State} (x : Nibble) (h : s.sp.val = 0) :
    FaultsWith (.ret x) s .stackUnderflow s.pc.toNat :=
  congrArg Host.Outcome.next (popPc_empty h _)

/-- RET with an address on the stack ends in the checked advance from that address (R101, R17). -/
theorem exec_ret_some {s : State} {k : Fin 16} (x : Nibble) (hk : s.sp.val = k.val + 1) :
    exec (.ret x) s =
      .next (finishAt (s.stack[k].toNat + 2) s { s with sp := k.castSucc }) :=
  congrArg Host.Outcome.next (popPc_some k hk _)

/-- RET where the address after the popped one exists. -/
theorem exec_ret_ok {s : State} {k : Fin 16} (x : Nibble) (hk : s.sp.val = k.val + 1)
    (ha : s.stack[k].toNat + 2 ≤ 0xFFF) :
    exec (.ret x) s = .next { s with sp := k.castSucc, pc := s.stack[k] + 2 } :=
  exec_of_finishAt_add (exec_ret_some x hk) ha

/-- A CALL that left the core running had room, and pushed its own address. -/
theorem exec_call_running {s t : State} {nnn : Addr} (h : exec (.call nnn) s = .next t)
    (ht : t.Running) : ∃ k : Fin 16, s.sp = k.castSucc ∧
      t = { s with stack := s.stack.set k.val s.pc k.isLt, sp := k.succ, pc := nnn } := by
  by_cases hfull : s.sp.val = 16
  · exact absurd ht ((faultsWith_call_full nnn hfull).not_running (by decide) h)
  · have hroom : s.sp.val < 16 := by have := s.sp.isLt; omega
    have hexec := exec_call_room (k := ⟨s.sp.val, hroom⟩) nnn rfl
    exact ⟨⟨s.sp.val, hroom⟩, rfl, Host.Outcome.next.inj (h.symm.trans hexec)⟩

/-- Settles O48: RET pops the entry at the SP that CALL used, and CALL wrote its own address there. -/
theorem retUndoesCall : Obligations.RetUndoesCall := by
  unfold Obligations.RetUndoesCall
  intro nnn x s t u _ hcall ht hsp hstack hpc
  obtain ⟨k, hk, rfl⟩ := exec_call_running hcall ht
  have htop : u.sp.val = k.val + 1 := congrArg Fin.val hsp
  have hentry : u.stack[k] = s.pc := by simp [hstack]
  rw [exec_ret_ok x htop (hentry ▸ hpc), hentry, hk]

/-! ### The flow instructions one by one -/

/-- Settles O1: SYS writes nothing and ends in the default advance. -/
theorem sysOnlyAdvances : Obligations.SysOnlyAdvances := by
  unfold Obligations.SysOnlyAdvances
  intro nnn
  refine ⟨fun hcls hret => ?_, fun s => orPcRange_of_finishNext rfl id⟩
  exact decode_encode (i := .sys nnn) ((sysFieldOk_iff nnn).mpr ⟨hcls, hret⟩)

/-- Settles O2: the pop underflows, or gives the entry from which PC advances. -/
theorem retPopsAndAdvances : Obligations.RetPopsAndAdvances := by
  unfold Obligations.RetPopsAndAdvances
  refine fun x s => ⟨decode_encode (i := .ret x) rfl, faultsWith_ret_empty x, fun k hk => ⟨?_, ?_⟩⟩
  · exact exec_ret_ok x hk
  · exact faultsWith_of_finishAt (exec_ret_some x hk)

/-- Settles O3: JP is one write of PC, without a check. -/
theorem jpSetsPc : Obligations.JpSetsPc := by
  unfold Obligations.JpSetsPc
  exact fun nnn => ⟨decode_encode (i := .jp nnn) rfl, fun _ => rfl⟩

/-- Settles O4: the push overflows, or sets the one entry at the old SP. -/
theorem callPushesItsOwnAddress : Obligations.CallPushesItsOwnAddress := by
  unfold Obligations.CallPushesItsOwnAddress
  refine fun nnn => ⟨decode_encode (i := .call nnn) rfl, fun s => ⟨fun k hk => ?_, ?_⟩⟩
  · refine ⟨_, exec_call_room nnn hk, rfl, Vector.getElem_set_self _, fun j hj => ?_⟩
    exact Vector.getElem_set_ne k.isLt j.isLt (Fin.val_ne_of_ne hj.symm)
  · exact faultsWith_call_full nnn

/-- Settles O5: both are skips, on a comparison of Vx with NN. -/
theorem skipOnImmediate : Obligations.SkipOnImmediate := by
  unfold Obligations.SkipOnImmediate
  refine fun x nn =>
    ⟨decode_encode (i := .seImm x nn) rfl, decode_encode (i := .sneImm x nn) rfl, fun s => ⟨?_, ?_⟩⟩
  · exact skipsExactlyIf_of_finishSkipIf rfl beq_iff_eq
  · exact skipsExactlyIf_of_finishSkipIf rfl bne_iff_ne

/-- Settles O6: both are skips, on a comparison of Vx with Vy. -/
theorem skipOnRegisters : Obligations.SkipOnRegisters := by
  unfold Obligations.SkipOnRegisters
  refine fun x y n =>
    ⟨decode_encode (i := .seReg x y n) rfl, decode_encode (i := .sneReg x y n) rfl, fun s => ⟨?_, ?_⟩⟩
  · exact skipsExactlyIf_of_finishSkipIf rfl beq_iff_eq
  · exact skipsExactlyIf_of_finishSkipIf rfl bne_iff_ne

/-- Settles O7: JP V0 writes nothing but PC, checked against the end of memory. -/
theorem jpV0AddsV0 : Obligations.JpV0AddsV0 := by
  unfold Obligations.JpV0AddsV0
  refine fun nnn => ⟨decode_encode (i := .jpV0 nnn) rfl, fun s => ?_⟩
  have hexec : exec (.jpV0 nnn) s = .next (finishAt (nnn.toNat + (s.reg 0x0).toNat) s s) := rfl
  exact ⟨exec_of_finishAt hexec, faultsWith_of_finishAt hexec⟩

end Sys2Proof.Machine

/-! PROOFS. The load, arithmetic, logic, shift and random rules of 42_load_alu_random.md: the words decode
to their instructions, and each writes its result, and its flag if it has one, and advances (R120 to
R131). -/

namespace Sys2Proof.Machine

/-! ### The shapes of an instruction that writes registers and advances -/

section
variable {i : Instr} {s : State} {x : Nibble} {b b' f f' : Byte}

/-- One register written before the default advance (R10, R84). -/
theorem orPcRange_writesReg (h : exec i s = .next (finishNext s (s.setReg x b))) :
    OrPcRange i s (WritesReg i s x b) :=
  orPcRange_of_finishNext h fun hexec =>
    ⟨_, hexec, rfl, State.reg_setReg_same s x b, fun _ hr => State.reg_setReg_ne s b hr⟩

/-- A result and then its flag written before the default advance (R11, D10); the two equations restate
result and flag in the terms of the rule. -/
theorem orPcRange_writesRegAndFlag (h : exec i s = .next (finishNext s (s.setResultFlag x b f)))
    (hb : b = b') (hf : f = f') : OrPcRange i s (WritesRegAndFlag i s x b' f') := by
  subst hb hf
  refine orPcRange_of_finishNext h fun hexec => ⟨_, hexec, rfl, ?_, ?_, ?_⟩
  · exact State.reg_setResultFlag_vf s x b f
  · exact State.reg_setResultFlag_dest s b f
  · exact fun _ => State.reg_setResultFlag_ne s b f

end

/-! ### Results as bits and as numbers -/

/-- Two bytes with the same eight bits are the same. -/
theorem eq_of_bits {a b : Byte} (h : ∀ k : Fin 8, a[k] = b[k]) : a = b :=
  BitVec.eq_of_getElem_eq fun k hk => h ⟨k, hk⟩

/-- A byte by its number. -/
theorem eq_ofNat_of_toNat_eq {a : Byte} {n : Nat} (h : a.toNat = n) : a = BitVec.ofNat 8 n :=
  (BitVec.toNat_eq_nat.mp h).2

section
variable (a b : Byte)

theorem add_eq_ofNat : a + b = BitVec.ofNat 8 ((a.toNat + b.toNat) % 256) :=
  eq_ofNat_of_toNat_eq (BitVec.toNat_add a b)

theorem sub_eq_ofNat : a - b = BitVec.ofNat 8 ((a.toNat + 256 - b.toNat) % 256) := by
  apply eq_ofNat_of_toNat_eq
  have hb := b.isLt
  rw [BitVec.toNat_sub]
  omega

theorem ushiftRight_one_eq_ofNat : a >>> 1 = BitVec.ofNat 8 (a.toNat / 2) :=
  eq_ofNat_of_toNat_eq (BitVec.toNat_ushiftRight a 1)

theorem shiftLeft_one_eq_ofNat : a <<< 1 = BitVec.ofNat 8 (a.toNat * 2 % 256) := by
  apply eq_ofNat_of_toNat_eq
  rw [BitVec.toNat_shiftLeft, Nat.shiftLeft_eq]

/-! ### Flags as numbers (R11, R119) -/

theorem flagByte_decide (p : Prop) [Decidable p] : flagByte (decide p) = if p then 1 else 0 := by
  by_cases h : p <;> simp [flagByte, h]

theorem carryFlag_eq_ite : carryFlag a b = if a.toNat + b.toNat ≥ 256 then 1 else 0 :=
  flagByte_decide _

theorem noBorrowFlag_eq_ite : noBorrowFlag a b = if a.toNat ≥ b.toNat then 1 else 0 :=
  flagByte_decide _

/-- The flag of bit k is the number of that bit. -/
theorem flagByte_getLsbD (k : Nat) : flagByte (a.getLsbD k) = BitVec.ofNat 8 (a.toNat / 2 ^ k % 2) := by
  rw [← BitVec.testBit_toNat, Nat.testBit_eq_decide_div_mod_eq, flagByte_decide]
  rcases Nat.mod_two_eq_zero_or_one (a.toNat / 2 ^ k) with h | h
  · rw [h]; rfl
  · rw [h]; rfl

theorem shiftedOutLow_eq_ofNat : shiftedOutLow a = BitVec.ofNat 8 (a.toNat % 2) := by
  rw [shiftedOutLow, flagByte_getLsbD, Nat.pow_zero, Nat.div_one]

theorem shiftedOutHigh_eq_ofNat : shiftedOutHigh a = BitVec.ofNat 8 (a.toNat / 128) := by
  have ha := a.isLt
  have hbit : a.toNat / 2 ^ 7 % 2 = a.toNat / 128 := by omega
  rw [shiftedOutHigh, flagByte_getLsbD, hbit]

end

/-! ### The random byte of a cycle (R31) -/

section
variable {s : State}

theorem State.ports_of_pending_cons {p : Ports} {rest : List Ports} (h : s.env.pending = p :: rest) :
    s.ports = p := by
  rw [State.ports, h]

theorem State.ports_of_pending_nil (h : s.env.pending = []) :
    s.ports = Config.freePorts s.env.drawn := by
  rw [State.ports, h]

end

/-! ### The instructions one by one -/

/-- Settles O11: a byte with the bits of an OR, AND or XOR is that byte, and it is all that is written. -/
theorem logicOperations : Obligations.LogicOperations := by
  unfold Obligations.LogicOperations
  refine fun x y => ⟨decode_encode (i := .orReg x y) rfl, decode_encode (i := .andReg x y) rfl,
    decode_encode (i := .xorReg x y) rfl, fun s b => ⟨fun hbits => ?_, fun hbits => ?_, fun hbits => ?_⟩⟩
  · obtain rfl : b = s.reg x ||| s.reg y :=
      eq_of_bits fun k => (hbits k).trans (BitVec.getElem_or k.isLt).symm
    exact orPcRange_writesReg rfl
  · obtain rfl : b = s.reg x &&& s.reg y :=
      eq_of_bits fun k => (hbits k).trans (BitVec.getElem_and k.isLt).symm
    exact orPcRange_writesReg rfl
  · obtain rfl : b = s.reg x ^^^ s.reg y :=
      eq_of_bits fun k => (hbits k).trans (BitVec.getElem_xor k.isLt).symm
    exact orPcRange_writesReg rfl

/-- Settles O8: LD Vx, NN writes its operand. -/
theorem ldImmediate : Obligations.LdImmediate := by
  unfold Obligations.LdImmediate
  exact fun x nn => ⟨decode_encode (i := .ldImm x nn) rfl, fun _ => orPcRange_writesReg rfl⟩

/-- Settles O9: the byte sum is the sum mod 256, and the carry flag its comparison with 256. -/
theorem addImmediate : Obligations.AddImmediate := by
  unfold Obligations.AddImmediate
  refine fun x nn => ⟨decode_encode (i := .addImm x nn) rfl, fun s => ?_⟩
  exact orPcRange_writesRegAndFlag rfl (add_eq_ofNat _ _) (carryFlag_eq_ite _ _)

/-- Settles O10: LD Vx, Vy writes the byte read from Vy. -/
theorem ldRegister : Obligations.LdRegister := by
  unfold Obligations.LdRegister
  exact fun x y => ⟨decode_encode (i := .ldReg x y) rfl, fun _ => orPcRange_writesReg rfl⟩

/-- Settles O12: as for O9, with both operands read before the writes. -/
theorem addRegister : Obligations.AddRegister := by
  unfold Obligations.AddRegister
  refine fun x y => ⟨decode_encode (i := .addReg x y) rfl, fun s => ?_⟩
  exact orPcRange_writesRegAndFlag rfl (add_eq_ofNat _ _) (carryFlag_eq_ite _ _)

/-- Settles O13: the byte difference is the difference mod 256, and no borrow is Vx at least Vy. -/
theorem subRegister : Obligations.SubRegister := by
  unfold Obligations.SubRegister
  refine fun x y => ⟨decode_encode (i := .subReg x y) rfl, fun s => ?_⟩
  exact orPcRange_writesRegAndFlag rfl (sub_eq_ofNat _ _) (noBorrowFlag_eq_ite _ _)

/-- Settles O14: a right shift halves, and the bit it drops is the remainder. -/
theorem shiftRight : Obligations.ShiftRight := by
  unfold Obligations.ShiftRight
  refine fun x y => ⟨decode_encode (i := .shr x y) rfl, fun s => ?_⟩
  exact orPcRange_writesRegAndFlag rfl (ushiftRight_one_eq_ofNat _) (shiftedOutLow_eq_ofNat _)

/-- Settles O15: as for O13, with the operands exchanged. -/
theorem subNegated : Obligations.SubNegated := by
  unfold Obligations.SubNegated
  refine fun x y => ⟨decode_encode (i := .subnReg x y) rfl, fun s => ?_⟩
  exact orPcRange_writesRegAndFlag rfl (sub_eq_ofNat _ _) (noBorrowFlag_eq_ite _ _)

/-- Settles O16: a left shift doubles mod 256, and the bit it drops is Vx div 128. -/
theorem shiftLeft : Obligations.ShiftLeft := by
  unfold Obligations.ShiftLeft
  refine fun x y => ⟨decode_encode (i := .shl x y) rfl, fun s => ?_⟩
  exact orPcRange_writesRegAndFlag rfl (shiftLeft_one_eq_ofNat _) (shiftedOutHigh_eq_ofNat _)

/-- Settles O17: the draw is the sample at the head of the feed, or the free value of an empty feed. -/
theorem rndMasksTheDraw : Obligations.RndMasksTheDraw := by
  unfold Obligations.RndMasksTheDraw
  refine fun x nn => ⟨decode_encode (i := .rnd x nn) rfl, fun s => ?_⟩
  have hrnd : OrPcRange (.rnd x nn) s (WritesReg (.rnd x nn) s x (s.ports.rnd &&& nn)) :=
    orPcRange_writesReg rfl
  refine ⟨fun p rest hfeed => ?_, fun hfeed => ?_⟩
  · rwa [State.ports_of_pending_cons hfeed] at hrnd
  · rwa [State.ports_of_pending_nil hfeed] at hrnd

end Sys2Proof.Machine

/-! PROOFS. The index and memory rules of 43_index_memory.md: the words decode to their instructions,
LD I, ADD I and LD F write I (R140 to R142), FX33 and FX55 store a checked range of bytes (R143, R144),
FX65 loads registers from one (R145), and FX65 gives back what FX55 stored. -/

namespace Sys2Proof.Machine

/-! ### How an instruction that begins with an operand check answers -/

section
variable {i : Instr} {s k u : State} {c : Cause} {n : Nat} {p q : Prop}

/-- Where the check does not pass, its fault is the instruction's answer (R172, R173). -/
theorem faultsWith_of_check (h : exec i s = .next u)
    (hcheck : (p ∧ u = takeFault c n s) ∨ (q ∧ u = k)) (hq : ¬q) : FaultsWith i s c n := by
  rcases hcheck with ⟨-, hu⟩ | ⟨hpass, -⟩
  · exact h.trans (congrArg _ hu)
  · exact absurd hpass hq

/-- Where the check does not fault, what follows it is the instruction's answer. -/
theorem exec_of_check (h : exec i s = .next u)
    (hcheck : (p ∧ u = takeFault c n s) ∨ (q ∧ u = k)) (hp : ¬p) : exec i s = .next k := by
  rcases hcheck with ⟨hfault, -⟩ | ⟨-, hu⟩
  · exact absurd hfault hp
  · exact h.trans (congrArg _ hu)

end

/-! ### Stores of a range of bytes -/

section
variable {s : State} {lo n a j : Nat} {f : Nat → Byte}

theorem State.byteAfterStore_add (h : j < n) : s.byteAfterStore lo n f (lo + j) = f j := by
  rw [State.byteAfterStore, if_pos (by omega), Nat.add_sub_cancel_left]

theorem State.byteAfterStore_outside (h : a < lo ∨ lo + n ≤ a) :
    s.byteAfterStore lo n f a = s.readByte a :=
  if_neg (by omega)

end

section
variable {i : Instr} {s : State} {n lo : Nat} {bs : List Byte} {f : Nat → Byte}

/-- Bytes stored before the default advance, by what memory then holds (R50, R51). -/
theorem storesBytes_of_exec (hexec : exec i s = .next { s.storeBytes lo bs with pc := s.pc + 2 })
    (hlen : bs.length = n) (hf : ∀ k (hk : k < bs.length), bs[k] = f k) : StoresBytes i s lo n f := by
  have hbyte := s.readByte_storeBytes_eq_byteAfterStore lo hlen hf
  exact ⟨_, hexec, rfl, fun k hk => (hbyte (lo + k)).trans (State.byteAfterStore_add hk),
    fun a ha => (hbyte a).trans (State.byteAfterStore_outside ha)⟩

/-- A store to I, ..., I + n: MEM_BOUNDS, then FONT_WRITE, then the bytes and the default advance (R46,
R47, R173). For n up to 15 a range that begins in the font region ends inside memory, so that the two
faults exclude each other. -/
theorem checkedStore_answers (hn : n ≤ 15)
    (h : exec i s = .next (checkBounds (s.ea n) s (checkFont (s.ea 0) s
      (finishNext s (s.storeBytes (s.ea 0) bs))))) :
    (0xFFF < s.i.toNat + n → FaultsWith i s .memBounds (s.i.toNat + n)) ∧
    (s.i.toNat < 0x050 → FaultsWith i s .fontWrite s.i.toNat) ∧
    (0x050 ≤ s.i.toNat → s.i.toNat + n ≤ 0xFFF →
      exec i s = .next (finishNext s (s.storeBytes s.i.toNat bs))) := by
  have pastBounds (hi : s.i.toNat + n ≤ 0xFFF) :=
    exec_of_check h (checkBounds_cases ..) (Nat.not_lt.mpr hi)
  refine ⟨fun hi => ?_, fun hfont => ?_, fun hfont hi => ?_⟩
  · exact faultsWith_of_check h (checkBounds_cases ..) (Nat.not_le.mpr hi)
  · exact faultsWith_of_check (pastBounds (by omega)) (checkFont_cases ..) (Nat.not_le.mpr hfont)
  · exact exec_of_check (pastBounds hi) (checkFont_cases ..) (Nat.not_lt.mpr hfont)

end

/-- Settles O21: the three bytes of the checked store are the decimal digits of Vx. -/
theorem storeBcd : Obligations.StoreBcd := by
  unfold Obligations.StoreBcd
  refine fun x => ⟨decode_encode (i := .ldBVx x) rfl, fun s => ?_⟩
  obtain ⟨hbounds, hfont, hstore⟩ := checkedStore_answers (i := .ldBVx x) (s := s) (by decide) rfl
  refine ⟨hbounds, hfont, fun hlo hhi => orPcRange_of_finishNext (hstore hlo hhi) ?_⟩
  intro hexec h t o _ ht ho hx
  exact storesBytes_of_exec hexec rfl (getElem_bcdDigits ht ho hx)

/-- Settles O22: the bytes of the checked store are V0, ..., Vx. -/
theorem storeRegisters : Obligations.StoreRegisters := by
  unfold Obligations.StoreRegisters
  refine fun x => ⟨decode_encode (i := .ldMemVx x) rfl, fun s => ?_⟩
  obtain ⟨hbounds, hfont, hstore⟩ :=
    checkedStore_answers (i := .ldMemVx x) (s := s) (Nat.le_of_lt_succ x.isLt) rfl
  refine ⟨hbounds, hfont, fun hlo hhi => orPcRange_of_finishNext (hstore hlo hhi) fun hexec => ?_⟩
  exact storesBytes_of_exec hexec (s.length_regsUpTo x) (s.getElem_regsUpTo x)

/-! ### FX65: registers loaded from memory -/

section
variable {s : State} {x r : Nibble}

/-- FX65 gives Vr the byte at I + r for r up to X (R145). -/
theorem reg_effect_ldVxMem_le (h : r.toNat ≤ x.toNat) :
    (effect (.ldVxMem x) s).reg r = s.readByte (s.i.toNat + r.toNat) := by
  have hr : 0 ≤ r.toNat ∧ r.toNat - 0 < (s.readBytes (s.ea 0) (x.toNat + 1)).length := by
    rw [State.length_readBytes]; omega
  exact (getElem_loadBytes ..).trans ((dif_pos hr).trans (s.getElem_readBytes ..))

/-- FX65 leaves the registers past X alone (R145). -/
theorem reg_effect_ldVxMem_gt (h : x.toNat < r.toNat) : (effect (.ldVxMem x) s).reg r = s.reg r := by
  have hr : ¬(0 ≤ r.toNat ∧ r.toNat - 0 < (s.readBytes (s.ea 0) (x.toNat + 1)).length) := by
    rw [State.length_readBytes]; omega
  exact (getElem_loadBytes ..).trans (dif_neg hr)

end

/-- Settles O23: past the bounds check FX65 has its effect on V and advances. -/
theorem loadRegisters : Obligations.LoadRegisters := by
  unfold Obligations.LoadRegisters
  refine fun x => ⟨decode_encode (i := .ldVxMem x) rfl, fun s => ⟨fun hhi => ?_, fun hhi => ?_⟩⟩
  · exact faultsWith_of_check rfl (checkBounds_cases ..) (Nat.not_le.mpr hhi)
  · have hexec : exec (.ldVxMem x) s = .next (finishNext s (effect (.ldVxMem x) s)) :=
      exec_of_check rfl (checkBounds_cases ..) (Nat.not_lt.mpr hhi)
    exact orPcRange_of_finishNext hexec fun hexec =>
      ⟨_, hexec, rfl, fun _ => reg_effect_ldVxMem_le, fun _ => reg_effect_ldVxMem_gt⟩

/-- Settles O49: FX65 loads Vr from I + r, where FX55 has stored the old Vr. -/
theorem loadUndoesStore : Obligations.LoadUndoesStore := by
  unfold Obligations.LoadUndoesStore
  intro x s t u w _ hstore ht _ hmem hparams hi hload hw r hr
  have hti : t.i = s.i := exec_keeps State.i hstore rfl
  obtain ⟨-, _, rfl⟩ := exec_running hload hw
  calc (effect (.ldVxMem x) u).reg r
      = u.readByte (u.i.toNat + r.toNat) := reg_effect_ldVxMem_le hr
    _ = t.readByte (s.i.toNat + r.toNat) := by rw [State.readByte_congr hmem hparams, hi, hti]
    _ = (s.storeBytes s.i.toNat (s.regsUpTo x)).readByte (s.i.toNat + r.toNat) :=
        exec_running_readByte hstore ht _
    _ = s.byteAfterStore s.i.toNat (x.toNat + 1) (fun k => s.reg (BitVec.ofNat 4 k))
          (s.i.toNat + r.toNat) :=
        s.readByte_storeBytes_eq_byteAfterStore _ (s.length_regsUpTo x) (s.getElem_regsUpTo x) _
    _ = s.reg (BitVec.ofNat 4 r.toNat) := State.byteAfterStore_add (Nat.lt_succ_of_le hr)
    _ = s.reg r := by rw [BitVec.ofNat_toNat, BitVec.setWidth_eq]

/-! ### The writers of I -/

/-- Settles O18: LD I writes its operand. -/
theorem ldIndex : Obligations.LdIndex := by
  unfold Obligations.LdIndex
  exact fun nnn => ⟨decode_encode (i := .ldI nnn) rfl, fun s => orPcRange_of_finishNext rfl id⟩

theorem indexCarryFlag_eq_ite (i : Addr) (b : Byte) :
    indexCarryFlag i b = if i.toNat + b.toNat ≥ 4096 then 1 else 0 :=
  flagByte_decide _

/-- A 12-bit address is a number taken mod 4096. -/
theorem addr_ofNat_mod (n : Nat) : BitVec.ofNat 12 (n % 4096) = BitVec.ofNat 12 n :=
  BitVec.eq_of_toNat_eq (by simp)

/-- Settles O19: sum and flag are computed from the operands read before either is written. -/
theorem addIndex : Obligations.AddIndex := by
  unfold Obligations.AddIndex
  refine fun x => ⟨decode_encode (i := .addIVx x) rfl, fun s => ?_⟩
  refine orPcRange_of_finishNext rfl fun hexec => ⟨_, hexec, ?_, ?_, fun r hr => ?_⟩
  · rw [addr_ofNat_mod, State.setReg_eq]
  · exact (State.reg_setReg_same ..).trans (indexCarryFlag_eq_ite _ _)
  · exact State.reg_setReg_ne _ _ hr

/-- Settles O20: the digit check comes before the advance, and FONT_BASE is 0. -/
theorem ldGlyphAddress : Obligations.LdGlyphAddress := by
  unfold Obligations.LdGlyphAddress
  refine fun x => ⟨decode_encode (i := .ldFVx x) rfl, fun s => ⟨fun hdigit => ?_, fun hdigit => ?_⟩⟩
  · have hexec := exec_of_check (i := .ldFVx x) rfl (checkDigit_cases x s _) (Nat.not_lt.mpr hdigit)
    refine orPcRange_of_finishNext hexec fun hexec => ?_
    rwa [glyphAddr, fontBase, Nat.zero_add] at hexec
  · exact faultsWith_of_check rfl (checkDigit_cases ..) (Nat.not_le.mpr hdigit)

end Sys2Proof.Machine

/-! PROOFS. The display rules of 44_display.md: the words decode to CLS and DRW, CLS blanks the screen
(R150), DRW flips the pixels of its sprite and reports a collision (R151 to R153), and what follows for a
draw after CLS and for a sprite drawn twice (R154). -/

namespace Sys2Proof.Machine

/-! ### The screen as pixels -/

section
variable {s t : State} {c : Fin 64} {r : Fin 32}

/-- The screen is determined by its pixels. -/
theorem State.fb_eq_of_pixel_eq (h : ∀ c r, t.pixel c r = s.pixel c r) : t.fb = s.fb := by
  apply Vector.ext
  intro r hr
  apply BitVec.eq_of_getLsbD_eq
  intro b hb
  have hpixel : t.fb[r].getLsbD (63 - (63 - b)) = s.fb[r].getLsbD (63 - (63 - b)) :=
    h ⟨63 - b, by omega⟩ ⟨r, hr⟩
  rwa [Nat.sub_sub_self (Nat.le_of_lt_succ hb)] at hpixel

/-- The pixels of a sprite are told from memory, the parameters and I only. -/
theorem spritePixel_congr {x y : Byte} {n : Nat} (hmem : t.mem = s.mem) (hparams : t.params = s.params)
    (hi : t.i = s.i) : SpritePixel t x y n c r ↔ SpritePixel s x y n c r := by
  simp only [SpritePixel, State.readByte_congr hmem hparams, hparams, hi]

/-- CLS leaves every pixel off (R150). -/
theorem pixel_effect_cls (z : Nibble) : (effect (.cls z) s).pixel c r = false := by
  have hrow : (effect (.cls z) s).fb[r] = 0 := Vector.getElem_replicate r.isLt
  rw [State.pixel, hrow, BitVec.ofNat_eq_ofNat, BitVec.getLsbD_zero]

end

/-! ### The effect of DRW -/

/-- A sprite's N is at most 15, so that it has no two rows on one screen row. -/
theorem spriteHeight_le (n : Nibble) : n.toNat ≤ 32 :=
  Nat.le_trans (Nat.le_of_lt n.isLt) (by decide)

theorem flagByte_of_iff {b : Bool} {p : Prop} (h : b = true ↔ p) :
    (p → flagByte b = 1) ∧ (¬p → flagByte b = 0) := by
  refine ⟨fun hp => ?_, fun hp => ?_⟩
  · rw [h.mpr hp]; rfl
  · rw [Bool.eq_false_iff.mpr (mt h.mp hp)]; rfl

section
variable {s : State} {x y n : Nibble} {c : Fin 64} {r : Fin 32}

/-- DRW flips the pixels that its sprite has on (R152). -/
theorem pixel_effect_drw_of_spritePixel (h : SpritePixel s (s.reg x) (s.reg y) n.toNat c r) :
    (effect (.drw x y n) s).pixel c r = !s.pixel c r := by
  obtain ⟨hflip, -, -⟩ := s.spriteCanvas_pixels (s.reg x) (s.reg y) n.toNat (spriteHeight_le n)
  exact hflip c r h

/-- DRW leaves every other pixel alone (R152). -/
theorem pixel_effect_drw_of_not_spritePixel (h : ¬SpritePixel s (s.reg x) (s.reg y) n.toNat c r) :
    (effect (.drw x y n) s).pixel c r = s.pixel c r := by
  obtain ⟨-, hkeep, -⟩ := s.spriteCanvas_pixels (s.reg x) (s.reg y) n.toNat (spriteHeight_le n)
  exact hkeep c r h

/-- DRW leaves in VF whether a pixel of its sprite was on (R152). -/
theorem reg_vf_effect_drw (s : State) (x y n : Nibble) :
    ((∃ c r, SpritePixel s (s.reg x) (s.reg y) n.toNat c r ∧ s.pixel c r = true) →
      (effect (.drw x y n) s).reg 0xF = 1) ∧
    ((¬∃ c r, SpritePixel s (s.reg x) (s.reg y) n.toNat c r ∧ s.pixel c r = true) →
      (effect (.drw x y n) s).reg 0xF = 0) := by
  obtain ⟨-, -, hcollision⟩ :=
    s.spriteCanvas_pixels (s.reg x) (s.reg y) n.toNat (spriteHeight_le n)
  have hvf : (effect (.drw x y n) s).reg 0xF =
      flagByte (s.spriteCanvas (s.reg x) (s.reg y) n.toNat).collision := State.reg_setReg_same _ _ _
  rw [hvf]
  exact flagByte_of_iff hcollision

/-- DRW writes no register but VF (R152). -/
theorem reg_effect_drw_ne {k : Nibble} (h : k ≠ 0xF) : (effect (.drw x y n) s).reg k = s.reg k :=
  State.reg_setReg_ne _ _ h

end

/-! ### A completed instruction, observed -/

/-- PC and status apart, an instruction that leaves the core running leaves what its effect leaves. -/
theorem exec_running_eq {α : Type} (f : State → α) {i : Instr} {s t : State}
    (h : exec i s = .next t) (ht : t.Running)
    (hf : IgnoresPcStatus f := by exact fun _ _ _ => rfl) : f t = f (effect i s) := by
  obtain ⟨-, p, rfl⟩ := exec_running h ht
  exact hf (effect i s) p (effect i s).status

/-! ### The instructions -/

/-- Settles O25: past the bounds check DRW has its effect, pixel by pixel, and advances. -/
theorem drwFlipsTheSpritesPixels : Obligations.DrwFlipsTheSpritesPixels := by
  unfold Obligations.DrwFlipsTheSpritesPixels
  refine fun x y n => ⟨decode_encode (i := .drw x y n) rfl, fun s => ?_⟩
  have hcheck := (checkSprite_cases n.toNat s (finishNext s (effect (.drw x y n) s))).imp_left
    and_assoc.mpr
  refine ⟨fun hn hhi => faultsWith_of_check rfl hcheck (by omega), fun hin => ?_⟩
  have hexec : exec (.drw x y n) s = .next (finishNext s (effect (.drw x y n) s)) :=
    exec_of_check rfl hcheck (by omega)
  refine orPcRange_of_finishNext hexec fun hexec => ⟨_, hexec, rfl, ?_, ?_, ?_⟩
  · exact fun _ _ => pixel_effect_drw_of_spritePixel
  · exact fun _ _ => pixel_effect_drw_of_not_spritePixel
  · obtain ⟨hset, hclear⟩ := reg_vf_effect_drw s x y n
    exact ⟨hset, hclear, fun _ => reg_effect_drw_ne⟩

/-- Settles O26: on the blank screen that CLS leaves, no sprite pixel is on. -/
theorem firstDrawAfterClsReportsNoCollision : Obligations.FirstDrawAfterClsReportsNoCollision := by
  unfold Obligations.FirstDrawAfterClsReportsNoCollision
  intro z x y n s t u _ hcls ht hdrw hu
  have hblank (c : Fin 64) (r : Fin 32) : t.pixel c r = false :=
    (exec_running_eq (·.pixel c r) hcls ht).trans (pixel_effect_cls z)
  obtain ⟨-, hclear⟩ := reg_vf_effect_drw t x y n
  rw [exec_running_eq (·.reg 0xF) hdrw hu]
  refine hclear ?_
  rintro ⟨c, r, -, hon⟩
  exact Bool.false_ne_true ((hblank c r).symm.trans hon)

/-- Settles O27: both draws have the same sprite pixels, so that the second flips back what the first
flipped, and finds on what the first found off. -/
theorem drawingTwiceRestoresTheScreen : Obligations.DrawingTwiceRestoresTheScreen := by
  unfold Obligations.DrawingTwiceRestoresTheScreen
  intro x y n s t u _ hfirst ht hx hy hsecond hu
  have hsprite (c : Fin 64) (r : Fin 32) : SpritePixel t (t.reg x) (t.reg y) n.toNat c r ↔
      SpritePixel s (s.reg x) (s.reg y) n.toNat c r := by
    rw [hx, hy]
    exact spritePixel_congr (exec_keeps State.mem hfirst rfl) (exec_keeps State.params hfirst rfl)
      (exec_keeps State.i hfirst rfl)
  have hflip {c : Fin 64} {r : Fin 32} (h : SpritePixel s (s.reg x) (s.reg y) n.toNat c r) :
      t.pixel c r = !s.pixel c r :=
    (exec_running_eq (·.pixel c r) hfirst ht).trans (pixel_effect_drw_of_spritePixel h)
  refine ⟨State.fb_eq_of_pixel_eq fun c r => ?_, ?_⟩
  · rw [exec_running_eq (·.pixel c r) hsecond hu]
    by_cases h : SpritePixel s (s.reg x) (s.reg y) n.toNat c r
    · rw [pixel_effect_drw_of_spritePixel ((hsprite c r).mpr h), hflip h, Bool.not_not]
    · rw [pixel_effect_drw_of_not_spritePixel (mt (hsprite c r).mp h),
        exec_running_eq (·.pixel c r) hfirst ht, pixel_effect_drw_of_not_spritePixel h]
  · have hcollision : (∃ c r, SpritePixel t (t.reg x) (t.reg y) n.toNat c r ∧ t.pixel c r = true) ↔
        ∃ c r, SpritePixel s (s.reg x) (s.reg y) n.toNat c r ∧ s.pixel c r = false :=
      exists_congr fun c => exists_congr fun r => (and_congr_left' (hsprite c r)).trans <|
        and_congr_right fun h => by rw [hflip h, Bool.not_eq_true']
    rw [← hcollision, exec_running_eq (·.reg 0xF) hsecond hu]
    exact reg_vf_effect_drw t x y n

/-- Settles O24: CLS writes 32 zero rows and advances. -/
theorem clsClearsTheScreen : Obligations.ClsClearsTheScreen := by
  unfold Obligations.ClsClearsTheScreen
  refine fun x => ⟨decode_encode (i := .cls x) rfl, fun s => ?_⟩
  exact orPcRange_of_finishNext rfl fun hexec =>
    ⟨_, hexec, rfl, fun r => Vector.getElem_replicate r.isLt⟩

end Sys2Proof.Machine

/-! PROOFS. The keypad and timer rules of 45_keypad_timer_instr.md: the words decode to their
instructions, the key skips and the key wait follow the latched keys (R160 to R163), the timer
instructions move one byte (R164 to R166), and a core waiting for a key only latches and ticks. -/

namespace Sys2Proof.Machine

/-! ### The key wait -/

section
variable {s : State}

/-- FX0A without a newly pressed key blocks (R162). -/
theorem exec_ldVxK_blocked (x : Nibble) (h : s.newly = 0) : exec (.ldVxK x) s = .next s :=
  congrArg Host.Outcome.next (if_pos h)

/-- FX0A with k the lowest newly pressed key takes k (R162). -/
theorem exec_ldVxK_pressed (x : Nibble) {k : Fin 16} (hk : s.newly[k] = true)
    (hlt : ∀ j : Fin 16, j < k → s.newly[j] = false) :
    exec (.ldVxK x) s = .next (finishNext s (s.setReg x (BitVec.ofNat 8 k.val))) := by
  have hlowest : lowest s.newly = k.val :=
    lowest_eq k.isLt hk fun j hj => hlt ⟨j, hj.trans k.isLt⟩ hj
  have hnewly : s.newly ≠ 0 := fun h => by simp [h] at hk
  rw [← hlowest]
  exact congrArg Host.Outcome.next (if_neg hnewly)

/-- Without a press edge the key latch only drops the released keys (R195). -/
theorem latchKeys_of_no_press (h : s.ports.keyPressed = 0) :
    latchKeys s = { s with held := s.held &&& ~~~s.ports.keyReleased, newly := 0 } := by
  simp only [latchKeys, h, BitVec.ofNat_eq_ofNat, BitVec.or_zero]

end

/-- Settles O40: without a press edge FX0A blocks on the latched state, and the cycle's tick follows. -/
theorem keyWaitBlocksUntilAPressEdge : Obligations.KeyWaitBlocksUntilAPressEdge := by
  unfold Obligations.KeyWaitBlocksUntilAPressEdge
  rintro s ⟨hrun, hnone, x, hfetch⟩
  have hstep : step s = .next (consumeSample (tickIf s.ports.tickDue (latchKeys s))) := by
    rw [step_of_exec hrun hfetch (exec_ldVxK_blocked x hnone),
      endCycle_running _ (s := latchKeys s) hrun]
  refine ⟨_, hstep, ?_, fun hdue => ?_, fun hdue => ?_⟩
  · rw [latchKeys_of_no_press hnone]
    rfl
  · rw [hdue]
    exact ⟨rfl, rfl, rfl⟩
  · rw [hdue]
    exact ⟨rfl, rfl, rfl⟩

/-! ### The instructions one by one -/

/-- Settles O28: past the key check both are skips, on the latched state of key Vx. -/
theorem skipOnKey : Obligations.SkipOnKey := by
  unfold Obligations.SkipOnKey
  refine fun x => ⟨decode_encode (i := .skp x) rfl, decode_encode (i := .sknp x) rfl,
    fun s => ⟨fun k hk => ?_, fun hkey => ⟨?_, ?_⟩⟩⟩
  · have hok : ¬15 < (s.reg x).toNat := by omega
    have hheld : s.keyHeld (s.reg x).toNat = s.held[k] := congrArg s.keyHeld hk
    have hskp := exec_of_check (i := .skp x) rfl (checkKey_cases x s _) hok
    have hsknp := exec_of_check (i := .sknp x) rfl (checkKey_cases x s _) hok
    rw [hheld] at hskp hsknp
    exact ⟨skipsExactlyIf_of_finishSkipIf hskp Iff.rfl,
      skipsExactlyIf_of_finishSkipIf hsknp (Bool.not_eq_true' _).to_iff⟩
  · exact faultsWith_of_check rfl (checkKey_cases ..) (Nat.not_le.mpr hkey)
  · exact faultsWith_of_check rfl (checkKey_cases ..) (Nat.not_le.mpr hkey)

/-- Settles O30: the key wait blocks, or writes the lowest newly pressed key. -/
theorem keyWait : Obligations.KeyWait := by
  unfold Obligations.KeyWait
  refine fun x => ⟨decode_encode (i := .ldVxK x) rfl, fun s => ⟨exec_ldVxK_blocked x, ?_⟩⟩
  exact fun k hk hlt => orPcRange_writesReg (exec_ldVxK_pressed x hk hlt)

/-- Settles O29: LD Vx, DT writes the byte read from DT. -/
theorem ldFromDelayTimer : Obligations.LdFromDelayTimer := by
  unfold Obligations.LdFromDelayTimer
  exact fun x => ⟨decode_encode (i := .ldVxDt x) rfl, fun _ => orPcRange_writesReg rfl⟩

/-- Settles O31: LD DT, Vx is one write of DT before the default advance. -/
theorem ldDelayTimer : Obligations.LdDelayTimer := by
  unfold Obligations.LdDelayTimer
  exact fun x => ⟨decode_encode (i := .ldDtVx x) rfl, fun _ => orPcRange_of_finishNext rfl id⟩

/-- Settles O32: the gate that LD ST, Vx writes is the comparison of Vx with zero. -/
theorem ldSoundTimer : Obligations.LdSoundTimer := by
  unfold Obligations.LdSoundTimer
  refine fun x => ⟨decode_encode (i := .ldStVx x) rfl, fun s => ?_⟩
  exact orPcRange_of_finishNext rfl fun hexec => ⟨_, hexec, rfl, bne_iff_ne⟩

end Sys2Proof.Machine

/-! PROOFS. The rules of 60_exceptions.md: a fault writes status and nothing else (R172), the information
word of each cause a cycle can raise (R171), the tick and how often a cycle takes it (R190, R191), and the
key latch of phase (a) (R195). -/

namespace Sys2Proof.Machine

/-! ### The faults of a cycle -/

/-- The faults phase (b) can take, those of fetch and decode included, with their information words. -/
def CycleFault (s : State) (c : Cause) (n : Nat) : Prop :=
  match c with
  | .fetchBounds => n = 0xFFF ∧ s.pc = 0xFFF
  | .decode => n = decodeInfo s.fetchWord s.pc ∧ ∃ e, decode s.fetchWord = .error e
  | c => FaultOf s c n

section
variable {s m t : State} {c : Cause} {n : Nat}

theorem FaultOf.cycleFault (h : FaultOf s c n) : CycleFault s c n := by
  cases c with
  | fetchBounds | decode => exact h.elim
  | _ => exact h

theorem CycleFault.ne_run (h : CycleFault s c n) : c ≠ .run := by
  rintro rfl
  exact h

/-- Phase (b) takes one fault, which writes status only, or leaves status alone. -/
theorem executeOne_faults_or_keeps_status (h : executeOne s = .next m) :
    (∃ c n, CycleFault s c n ∧ m = takeFault c n s) ∨ m.status = s.status := by
  rcases executeOne_cases s with ⟨hpc, hm⟩ | ⟨-, e, he, hm⟩ | ⟨-, i, -, -, hm⟩
  · exact .inl ⟨.fetchBounds, _, ⟨rfl, hpc⟩, Host.Outcome.next.inj (h.symm.trans hm)⟩
  · exact .inl ⟨.decode, _, ⟨rfl, e, he⟩, Host.Outcome.next.inj (h.symm.trans hm)⟩
  · rcases exec_inversion (hm.symm.trans h) with ⟨c, n, hc, rfl⟩ | ⟨-, p, rfl⟩
    · exact .inl ⟨c, n, hc.cycleFault, rfl⟩
    · exact .inr (effect_status i s)

/-- A step of a running core takes one fault on the latched state, without a tick, or leaves status
alone. -/
theorem step_faults_or_keeps_status (hrun : s.Running) (h : step s = .next t) :
    (∃ c n, CycleFault (latchKeys s) c n ∧ t = consumeSample (takeFault c n (latchKeys s))) ∨
    t.status = s.status := by
  rcases step_cases h with ⟨hstopped, -⟩ | ⟨-, m, hm, rfl⟩
  · exact absurd hrun hstopped
  · rcases executeOne_faults_or_keeps_status hm with ⟨c, n, hc, rfl⟩ | hstatus
    · have hstopped : ¬(takeFault c n (latchKeys s)).Running := hc.ne_run
      exact .inl ⟨c, n, hc, endCycle_stopped _ hstopped⟩
    · exact .inr hstatus

end

/-- Settles O36: a step that stops the core took a fault, and that fault was taken on the latched state. -/
theorem faultsArePrecise : Obligations.FaultsArePrecise := by
  unfold Obligations.FaultsArePrecise
  intro s t hrun h ht
  rcases step_faults_or_keeps_status hrun h with ⟨c, n, -, rfl⟩ | hstatus
  · rfl
  · exact absurd ((congrArg Status.cause hstatus).trans hrun) ht

/-! ### The information word -/

section
variable {s : State} {c : Cause} {n : Nat}

/-- The low half of the information word of DECODE is PC. -/
theorem decodeInfo_mod (w : Word) (pc : Addr) : decodeInfo w pc % 2 ^ 16 = pc.toNat := by
  have := pc.isLt
  unfold decodeInfo
  omega

/-- The high half of the information word of DECODE is the word. -/
theorem decodeInfo_div (w : Word) (pc : Addr) : decodeInfo w pc / 2 ^ 16 = w.toNat := by
  have := pc.isLt
  unfold decodeInfo
  omega

theorem decodeInfo_lt (w : Word) (pc : Addr) : decodeInfo w pc < 2 ^ 32 := by
  have := w.isLt
  have := pc.isLt
  unfold decodeInfo
  omega

/-- Every information word fits its 32 bits. -/
theorem CycleFault.info_lt (h : CycleFault s c n) : n < 2 ^ 32 := by
  have hpc := s.pc.isLt
  cases c with
  | run | loadSize => exact h.elim
  | decode =>
    obtain ⟨rfl, -⟩ := h
    exact decodeInfo_lt _ _
  | fetchBounds | stackOverflow | stackUnderflow =>
    obtain ⟨hn, -⟩ := h
    omega
  | fontWrite =>
    obtain ⟨hn, hi⟩ := h
    omega
  | memBounds | pcRange | keyIndex | digitIndex =>
    obtain ⟨-, hn⟩ := h
    omega

end

/-- Settles O37: the information word is the one of the fault taken, and no other step touches it. -/
theorem informationWordOfEachCause : Obligations.InformationWordOfEachCause := by
  unfold Obligations.InformationWordOfEachCause
  intro s t hrun h
  rcases step_faults_or_keeps_status hrun h with ⟨c, n, hfault, rfl⟩ | hstatus
  · have hinfo : (BitVec.ofNat 32 n).toNat = n :=
      (BitVec.toNat_ofNat n 32).trans (Nat.mod_eq_of_lt hfault.info_lt)
    rw [consumeSample_status, takeFault_status, hinfo]
    cases c with
    | run => exact hfault.elim
    | decode =>
      obtain ⟨rfl, hillegal⟩ := hfault
      refine ⟨decodeInfo_mod _ _, ?_⟩
      rwa [decodeInfo_div, BitVec.ofNat_toNat, BitVec.setWidth_eq]
    | _ => exact hfault
  · have hcause : s.status.cause = .run := hrun
    simp only [hstatus, hcause]

/-! ### The tick -/

/-- A timer reaches 0 from above exactly from 1. -/
theorem countDown_reaches_zero_iff (b : Byte) : b ≠ 0 ∧ countDown b = 0 ↔ b = 1 := by
  rw [countDown_eq_zero]
  bv_omega

/-- Settles O38: each timer counts down, and the gate is cleared where ST reaches 0 from above. -/
theorem tickCountsDown : Obligations.TickCountsDown := by
  unfold Obligations.TickCountsDown
  refine fun s => ⟨rfl, toNat_countDown s.dt, toNat_countDown s.st, fun hst => ?_, fun hst => ?_⟩
  · exact if_pos ((countDown_reaches_zero_iff s.st).mpr hst)
  · exact if_neg (mt (countDown_reaches_zero_iff s.st).mp hst)

/-- Counted down at most once, a byte stays or drops by exactly one. -/
theorem countDown_if_drops_once (due : Bool) (b : Byte) :
    (if due then countDown b else b) = b ∨ (if due then countDown b else b).toNat + 1 = b.toNat := by
  by_cases hb : 1 ≤ b.toNat
  · cases due
    · exact .inl rfl
    · exact .inr (countDown_succ hb)
  · obtain rfl : b = 0 := BitVec.eq_of_toNat_eq (Nat.eq_zero_of_not_pos hb)
    cases due
    · exact .inl rfl
    · exact .inl countDown_zero

section
variable {s m : State}

/-- Phase (b) of a cycle that is not one of FX15 leaves DT alone. -/
theorem executeOne_latchKeys_dt (h : executeOne (latchKeys s) = .next m)
    (hi : ∀ x, fetchDecode s ≠ .ok (.ldDtVx x)) : m.dt = s.dt :=
  executeOne_keeps (s := latchKeys s) State.dt h fun _ hd =>
    effect_dt fun x hx => hi x ((fetchDecode_latchKeys s).symm.trans (hx ▸ hd))

/-- Phase (b) of a cycle that is not one of FX18 leaves ST alone. -/
theorem executeOne_latchKeys_st (h : executeOne (latchKeys s) = .next m)
    (hi : ∀ x, fetchDecode s ≠ .ok (.ldStVx x)) : m.st = s.st :=
  executeOne_keeps (s := latchKeys s) State.st h fun _ hd =>
    effect_st fun x hx => hi x ((fetchDecode_latchKeys s).symm.trans (hx ▸ hd))

end

/-- Settles O41: unless phase (b) writes the timer, only the one tick of phase (c) can change it. -/
theorem timersDropAtMostOncePerCycle : Obligations.TimersDropAtMostOncePerCycle := by
  unfold Obligations.TimersDropAtMostOncePerCycle
  intro s t h
  rcases step_cases h with ⟨-, rfl⟩ | ⟨-, m, hm, rfl⟩
  · exact ⟨fun _ => .inl rfl, fun _ => .inl rfl⟩
  · refine ⟨fun hi => ?_, fun hi => ?_⟩
    · rw [← executeOne_latchKeys_dt hm hi]
      exact countDown_if_drops_once _ m.dt
    · rw [← executeOne_latchKeys_st hm hi]
      exact countDown_if_drops_once _ m.st

/-! ### The key latch -/

/-- Settles O39: the masks act bit by bit. -/
theorem keyLatchFollowsTheEdges : Obligations.KeyLatchFollowsTheEdges := by
  unfold Obligations.KeyLatchFollowsTheEdges
  refine fun s => ⟨rfl, fun k => ?_⟩
  simp only [latchKeys_held, Fin.getElem_fin, BitVec.getElem_and, BitVec.getElem_or,
    BitVec.getElem_not, Bool.and_eq_true, Bool.or_eq_true, Bool.not_eq_true']

end Sys2Proof.Machine

/-! PROOFS. The rules of 70_reset_and_hazards.md: reset establishes the invariant, and it copies the image or
rejects it (R211). -/

namespace Sys2Proof.Machine

/-! ### Memory before the image -/

theorem readByte_cleared_font (p : Params) {a : Nat} (ha : a < 80) :
    (State.cleared p).readByte a = p.font[a] :=
  dif_pos ha

theorem readByte_cleared_fill (p : Params) {a : Nat} (ha : 80 ≤ a) :
    (State.cleared p).readByte a = p.memFill :=
  dif_neg (Nat.not_lt.mpr ha)

/-! ### The two outcomes of a load -/

theorem resetWith_of_fits (p : Params) {image : List Byte} (h : image.length ≤ 3584) :
    resetWith p image = (State.cleared p).storeBytes 0x200 image :=
  if_neg (Nat.not_lt.mpr h)

theorem resetWith_of_too_long (p : Params) {image : List Byte} (h : 3584 < image.length) :
    resetWith p image = takeFault .loadSize image.length (State.cleared p) :=
  if_pos h

@[simp] theorem resetWith_params (p : Params) (image : List Byte) : (resetWith p image).params = p := by
  obtain ⟨m, r, h⟩ := resetWith_eq_cleared p image
  rw [h]
  rfl

/-! ### The invariant at reset -/

theorem inv_cleared (p : Params) : Inv (State.cleared p) where
  memWf := State.cleared_wf p
  font _ ha := readByte_cleared_font p ha
  tone := by simp [State.cleared]
  info _ := rfl

/-- An accepted image lies between the font region and the end of memory; a rejected one stops the core. -/
theorem inv_resetWith (p : Params) (image : List Byte) : Inv (resetWith p image) := by
  by_cases h : image.length ≤ 3584
  · rw [resetWith_of_fits p h]
    exact (inv_cleared p).storeBytes (by decide) (by omega)
  · rw [resetWith_of_too_long p (Nat.lt_of_not_le h)]
    exact (inv_cleared p).takeFault (by decide) _

/-- Settles O52: State.reset is the cleared machine with the default parameters. -/
theorem resetHasInvariant : Obligations.ResetHasInvariant := by
  unfold Obligations.ResetHasInvariant
  exact inv_cleared defaultParams

/-- Settles O53: it holds of the cleared machine, and both outcomes of the load keep it. -/
theorem everyResetHasInvariant : Obligations.EveryResetHasInvariant := by
  unfold Obligations.EveryResetHasInvariant
  exact inv_resetWith

/-! ### What memory holds after a load -/

section
variable {p : Params} {image : List Byte}

theorem readByte_resetWith_image (h : image.length ≤ 3584) {k : Nat} (hk : k < image.length) :
    (resetWith p image).readByte (0x200 + k) = image[k] := by
  rw [resetWith_of_fits p h, State.readByte_storeBytes, dif_pos (by omega)]
  simp only [Nat.add_sub_cancel_left]

theorem readByte_resetWith_fill (h : image.length ≤ 3584) {a : Nat} (hfont : 0x50 ≤ a)
    (hout : a < 0x200 ∨ 0x200 + image.length ≤ a) : (resetWith p image).readByte a = p.memFill := by
  rw [resetWith_of_fits p h, State.readByte_storeBytes, dif_neg (by omega)]
  exact readByte_cleared_fill p hfont

end

/-- Settles O55: an accepted image is stored in the cleared machine, a rejected one takes a fault, which stores
nothing; the font is part of the invariant (O53). -/
theorem loadCopiesOrRejectsTheImage : Obligations.LoadCopiesOrRejectsTheImage := by
  unfold Obligations.LoadCopiesOrRejectsTheImage
  refine fun p image => ⟨fun h => ⟨?_, fun _ => readByte_resetWith_image h, fun _ => readByte_resetWith_fill h⟩,
    fun h => ⟨?_, ?_⟩, fun a ha => ?_⟩
  · rw [resetWith_of_fits p h]
    rfl
  · rw [resetWith_of_too_long p h]
    rfl
  · rw [resetWith_of_too_long p h]
    exact fun a hfont => readByte_cleared_fill p hfont
  · simpa only [resetWith_params] using (inv_resetWith p image).font a ha

end Sys2Proof.Machine
